-- ==== Sys2Proof/Word.lean ====
section
/-! DEFINITION. The word types of the SCOM engine (00_scope.md R14, R15): bytes, `int16`, the 8-bit
attempt counter and 32-bit values. All wrap, as R15 reads "int16" and the clock. -/

namespace Sys2Proof

/-- A byte of a stream or of the info-message buffer. -/
abbrev Byte := BitVec 8

/-- A signed 16-bit value: a sequence number, a payload, a checksum (00_scope.md R14). -/
abbrev I16 := BitVec 16

/-- An unsigned 32-bit value: a clock value, an interval in milliseconds, a frame word, a host word. -/
abbrev U32 := BitVec 32

/-- An unsigned 8-bit count (00_scope.md R8, R14). -/
abbrev U8 := BitVec 8

end Sys2Proof
end

