-- ==== Sys2Proof/Config.lean ====
section
/-! DEFINITION. The constants and parameters of the hardware: the opcode values of 30_encoding.md R73
and the implementation parameters of 00_scope.md R11 to R13. -/

namespace Sys2Proof

/-- How the end of an info message is found (00_scope.md R13). -/
inductive InfoFraming where
  | nulTerminated
  | available
deriving DecidableEq, Repr

/-- The parameters the spec leaves open (00_scope.md R11 to R13; 92_eei_decisions.md, Open
parameters). They are fixed for one machine: State carries them and nothing writes them. -/
structure Params where
  /-- `RX_DEPTH`: capacity of the receive buffer, at least 4 (R11). -/
  rxDepth : Nat
  /-- `INFO_MAX`: capacity of the info-message buffer, at least 1 (R12). -/
  infoMax : Nat
  /-- `INFO_FRAMING` (R13). -/
  infoFraming : InfoFraming
deriving DecidableEq, Repr

/-- The ranges of 00_scope.md R11 and R12. -/
abbrev Params.Legal (p : Params) : Prop := 4 ≤ p.rxDepth ∧ 1 ≤ p.infoMax

namespace Config

/-- `OPC_SOH` (30_encoding.md R73; DESIGN CHOICE of the spec's D2, log 17, for this and the next six). -/
def opcSoh : I16 := 0x0001
/-- `OPC_STX`. -/
def opcStx : I16 := 0x0002
/-- `OPC_ETX`. -/
def opcEtx : I16 := 0x0003
/-- `OPC_EOT`. -/
def opcEot : I16 := 0x0004
/-- `OPC_ACK`. -/
def opcAck : I16 := 0x0006
/-- `OPC_ABF`. -/
def opcAbf : I16 := 0x0015
/-- `OPC_ANT`. -/
def opcAnt : I16 := 0x0016

/-- The seven reserved opcode values (00_scope.md R10). -/
def opcodes : List I16 := [opcSoh, opcStx, opcEtx, opcEot, opcAck, opcAbf, opcAnt]

/-- By how much `RX_DEPTH` exceeds its least value 4. The spec leaves it open
(92_eei_decisions.md D29), so it has no body (log 3). -/
opaque rxDepthAbove : Nat

/-- By how much `INFO_MAX` exceeds its least value 1. The spec leaves it open
(92_eei_decisions.md D25), so it has no body (log 3). -/
opaque infoMaxAbove : Nat

/-- The parameters of the machine that `State.reset` gives: two open values and the default
framing of 00_scope.md R13 (log 18). -/
def params : Params :=
  { rxDepth := rxDepthAbove + 4, infoMax := infoMaxAbove + 1, infoFraming := .nulTerminated }

end Config

end Sys2Proof
end

