-- ==== Sys2Proof/Syntax.lean ====
section
/-! DEFINITION. What the engine decodes: one constructor for each row of spec/opcode_table.json
(30_encoding.md R75 to R82, R86), the two word formats (R70) and the frame classes (R74). -/

namespace Sys2Proof

/-- The two 32-bit formats of 30_encoding.md R70. The third format, `INFO`, is a run of bytes and
has no word (R84). -/
inductive Format where
  | frame32   -- a word read from the receive stream
  | hostcmd   -- a word issued by the host
deriving DecidableEq, Repr

/-- The class of a frame, decided by its payload alone (30_encoding.md R74). -/
inductive FrameClass where
  | soh | stx | etx | eot | ack | abf | ant | data
deriving DecidableEq, Repr

/-- One constructor for each row of the opcode table. A frame row carries the frame's sequence
field; `DATA` also its payload; `SEND` the payload in `ARG`. The operands that do not stand in the
word (`now`, the configuration of `OPEN`) are in State (30_encoding.md R85). -/
inductive Instr where
  | soh (seq : I16)
  | stx (seq : I16)
  | etx (seq : I16)
  | eot (seq : I16)
  | ack (seq : I16)
  | abf (seq : I16)
  | ant (seq : I16)
  | data (payload seq : I16)
  | tick
  | openSession
  | send (payload : I16)
  | readLast
  | isOpen
  | readStatus
deriving DecidableEq, Repr

/-- The format a row belongs to: the "format" column of spec/opcode_table.json. -/
def Instr.format : Instr → Format
  | .soh _ => .frame32
  | .stx _ => .frame32
  | .etx _ => .frame32
  | .eot _ => .frame32
  | .ack _ => .frame32
  | .abf _ => .frame32
  | .ant _ => .frame32
  | .data _ _ => .frame32
  | .tick => .hostcmd
  | .openSession => .hostcmd
  | .send _ => .hostcmd
  | .readLast => .hostcmd
  | .isOpen => .hostcmd
  | .readStatus => .hostcmd

end Sys2Proof
end

