-- ==== Sys2Proof/WellFormed.lean ====
section
/-! DEFINITION. Which instruction terms stand for a row's words. The one condition is that of the
`DATA` row: its payload is none of the seven opcode values (30_encoding.md R74, R82). A `SEND` of an
opcode value is a legal word that faults when it is run (41_engine_core.md R132), so it is
well-formed. -/

namespace Sys2Proof

/-- The check: a `DATA` frame carries no opcode value. -/
def Instr.wellFormed : Instr → Bool
  | .soh _ => true
  | .stx _ => true
  | .etx _ => true
  | .eot _ => true
  | .ack _ => true
  | .abf _ => true
  | .ant _ => true
  | .data payload _ => !(Config.opcodes.contains payload)
  | .tick => true
  | .openSession => true
  | .send _ => true
  | .readLast => true
  | .isOpen => true
  | .readStatus => true

/-- An instruction that some row's words decode to. -/
abbrev Instr.WellFormed (i : Instr) : Prop := i.wellFormed = true

end Sys2Proof
end

