-- ==== Sys2Proof/Decode.lean ====
section
/-! DEFINITION. The decoder and the encoder (30_encoding.md). A word is read in one of two formats:
`FRAME32` from the receive stream (R71 to R74) or `HOSTCMD` from the host (R85 to R87). Every frame
word is an instruction; a reserved host word is rejected by name. -/

namespace Sys2Proof

/-- Why a word or a run of bytes is no instruction. The first three are the reserved `HOSTCMD`
words of 30_encoding.md R87; the last is the precondition of `Decode` (40_codec.md R101). -/
inductive DecodeError where
  /-- `CMD` in 6..15. -/
  | reservedCmd
  /-- A set bit in 27:16. -/
  | mustBeZero
  /-- `ARG` other than 0 for an operation other than `SEND`. -/
  | argNotZero
  /-- Fewer than four bytes where a frame is decoded. -/
  | tooShort
deriving DecidableEq, Repr

/-- `Classify(payload)` (30_encoding.md R74). -/
def classify (payload : I16) : FrameClass :=
  if payload = Config.opcSoh then .soh
  else if payload = Config.opcStx then .stx
  else if payload = Config.opcEtx then .etx
  else if payload = Config.opcEot then .eot
  else if payload = Config.opcAck then .ack
  else if payload = Config.opcAbf then .abf
  else if payload = Config.opcAnt then .ant
  else .data

/-- The payload of a frame word: bits 31:16 (30_encoding.md R71). -/
def wordPayload (w : U32) : I16 := w.extractLsb' 16 16

/-- The sequence field of a frame word: bits 15:0 (30_encoding.md R71). -/
def wordSeq (w : U32) : I16 := w.extractLsb' 0 16

/-- The frame word of a payload and a sequence number (30_encoding.md R71). -/
def frameWord (payload seq : I16) : U32 := payload ++ seq

/-- The frame instruction of a payload and a sequence number: the class picks the row
(30_encoding.md R74). -/
def frameInstr (payload seq : I16) : Instr :=
  match classify payload with
  | .soh => .soh seq
  | .stx => .stx seq
  | .etx => .etx seq
  | .eot => .eot seq
  | .ack => .ack seq
  | .abf => .abf seq
  | .ant => .ant seq
  | .data => .data payload seq

/-- A `FRAME32` word: no word is illegal (30_encoding.md R71, R87). -/
def decodeFrame (w : U32) : Instr := frameInstr (wordPayload w) (wordSeq w)

/-- An operation that takes no argument: `ARG` must be 0 (30_encoding.md R85). -/
def withoutArg (arg : I16) (i : Instr) : Except DecodeError Instr :=
  if arg = 0 then .ok i else .error .argNotZero

/-- A `HOSTCMD` word (30_encoding.md R85 to R87): `CMD` in bits 31:28, zeros in 27:16, `ARG` in
15:0. -/
def decodeHostCmd (w : U32) : Except DecodeError Instr :=
  if w.extractLsb' 16 12 ≠ 0 then .error .mustBeZero
  else
    let arg : I16 := w.extractLsb' 0 16
    match (w.extractLsb' 28 4).toNat with
    | 0 => withoutArg arg .tick
    | 1 => withoutArg arg .openSession
    | 2 => .ok (.send arg)
    | 3 => withoutArg arg .readLast
    | 4 => withoutArg arg .isOpen
    | 5 => withoutArg arg .readStatus
    | _ => .error .reservedCmd

/-- The decoder: the format is known from where the word comes from, never from its bits
(30_encoding.md R70, R89). -/
def decode (fmt : Format) (w : U32) : Except DecodeError Instr :=
  match fmt with
  | .frame32 => .ok (decodeFrame w)
  | .hostcmd => decodeHostCmd w

/-- Four bytes in transmission order as one word, the first in bits 31:24 (30_encoding.md R71). -/
def bytesToWord (b0 b1 b2 b3 : Byte) : U32 := b0 ++ b1 ++ b2 ++ b3

/-- The four bytes of a word in transmission order (20_memory.md R52). -/
def wordToBytes (w : U32) : List Byte :=
  [w.extractLsb' 24 8, w.extractLsb' 16 8, w.extractLsb' 8 8, w.extractLsb' 0 8]

/-- `Encode(seq, payload)` (40_codec.md R100): payload first, each field high byte first. -/
def encodeFrame (seq payload : I16) : List Byte :=
  [payload.extractLsb' 8 8, payload.extractLsb' 0 8, seq.extractLsb' 8 8, seq.extractLsb' 0 8]

/-- The frame parser over any bytes (40_codec.md R101): the instruction of the first four bytes and
the bytes after them. -/
def decodeBytes : List Byte → Except DecodeError (Instr × List Byte)
  | b0 :: b1 :: b2 :: b3 :: rest => .ok (decodeFrame (bytesToWord b0 b1 b2 b3), rest)
  | _ => .error .tooShort

/-- A host word from its two fields (30_encoding.md R85). -/
def hostWord (cmd : BitVec 4) (arg : I16) : U32 := cmd ++ (0 : BitVec 12) ++ arg

/-- The encoder: the word of an instruction, from the tables of 30_encoding.md R73 and R86. -/
def encode : Instr → U32
  | .soh seq => frameWord 0x0001 seq
  | .stx seq => frameWord 0x0002 seq
  | .etx seq => frameWord 0x0003 seq
  | .eot seq => frameWord 0x0004 seq
  | .ack seq => frameWord 0x0006 seq
  | .abf seq => frameWord 0x0015 seq
  | .ant seq => frameWord 0x0016 seq
  | .data payload seq => frameWord payload seq
  | .tick => hostWord 0 0
  | .openSession => hostWord 1 0
  | .send payload => hostWord 2 payload
  | .readLast => hostWord 3 0
  | .isOpen => hostWord 4 0
  | .readStatus => hostWord 5 0

/-- The reading of a table word whose format is not given: a legal host word is that operation,
and any other word is a frame (DESIGN CHOICE, log 12: the two formats share words, `TICK` and the
`DATA` frame of payload 0 and sequence 0 among them). -/
def decodeAnyWord (w : U32) : Instr :=
  match decodeHostCmd w with
  | .ok i => i
  | .error _ => decodeFrame w

/-- The instruction the decoder reads from a row's bits, numbered as spec/opcode_table.json numbers
them. Every row has 32 bits; what needs more is no word of this hardware. -/
def decodeTableWord (nbits w : Nat) : Option Instr :=
  if nbits ≤ 32 ∧ w < 2 ^ 32 then some (decodeAnyWord (BitVec.ofNat 32 w)) else none

end Sys2Proof
end

