-- ==== Sys2Proof/Machine/State.lean ====
section
/-! DEFINITION. The state of the SCOM engine as plain data (10_state.md R21), what the host gets back
from an operation (60_exceptions.md R201, R202), the reasons a step can stop (R205), and the state
after power-on reset (10_state.md R38). -/

namespace Sys2Proof.Machine

open Sys2Proof

/-- `STATE`: the ten engine states, in the order of their codes 0 to 9. The codes 10 to 15 are never
held (10_state.md R22, R23; log 14). -/
inductive EngineState where
  | waitingForSignal
  | okContinue
  | waitingForAsciiSum
  | waitingForAck
  | inAckTimeoutBuffer
  | waitingForInfoMessage
  | waitingForRepMessage
  | waitingForAnt
  | waitingForMoreAnt
  | connectionClosed
deriving DecidableEq, Repr

/-- `PHASE`: where the session is in its life, in the order of the codes 0 to 4. The codes 5 to 7 are
never held (10_state.md R24; log 14). `opened` is the spec's `OPEN`. -/
inductive Phase where
  | notOpen
  | hsWaitSoh
  | hsVersion
  | hsWaitEtx
  | opened
deriving DecidableEq, Repr

/-- `ACK_CTX`: what the checksum reply that awaits `ACK` was for, in the order of the codes 0 to 2.
Code 3 is never held (10_state.md R33; log 14). -/
inductive AckCtx where
  | data
  | stx
  | info
deriving DecidableEq, Repr

/-- `CFG`: the configuration record (10_state.md R27). -/
structure Cfg where
  /-- `TIMEOUT`, ms. -/
  timeout : U32
  /-- `ACK_TIMEOUT`, ms. -/
  ackTimeout : U32
  /-- `ACK_WAIT`, ms: recognised, no effect. -/
  ackWait : U32
  /-- `ABF_INTERVAL`, ms. -/
  abfInterval : U32
  /-- `REFRESH_INTERVAL`, ms. -/
  refreshInterval : U32
  /-- `MAX_ABF_ATTEMPTS`. -/
  maxAbfAttempts : U8
  /-- `VERSION`. -/
  version : I16
deriving DecidableEq, Repr

/-- A received or emitted Signal (00_scope.md R18). -/
structure Frame where
  seq : I16
  payload : I16
deriving DecidableEq, Repr

/-- `LAST_SENT` (10_state.md R31). -/
structure SentRecord where
  valid : Bool
  seq : I16
  payload : I16
  expected : I16
deriving DecidableEq, Repr

/-- `LAST_RECV` (10_state.md R32). -/
structure RecvRecord where
  valid : Bool
  seq : I16
  payload : I16
deriving DecidableEq, Repr

/-- The contents of an indexed byte store as a list of cells. `INFO_BUF` is the only such store
(10_state.md R34): the engine has no addressable memory (20_memory.md R50). -/
abbrev Memory := List Host.Cell

/-- What an unlisted byte of `INFO_BUF` reads as. The spec gives no value and no rule reads such a
byte (10_state.md R34, R38): DESIGN CHOICE, log 9. -/
def Memory.unlisted : Byte := 0

/-- The one form of a store's contents: indices strictly rising, and no cell that equals what an
unlisted index reads as. -/
def Memory.wf : Memory → Bool
  | [] => true
  | [c] => c.2 != Memory.unlisted
  | c :: d :: m => c.2 != Memory.unlisted && decide (c.1 < d.1) && Memory.wf (d :: m)

/-- The events a `TICK` returns, in the order of their codes 0 to 3 (60_exceptions.md R202). -/
inductive Event where
  | none
  | handshakeOk
  | handshakeFailed
  | connectionClosed
deriving DecidableEq, Repr

/-- The internal conditions, in the order of their codes 1 to 7 (60_exceptions.md R201). -/
inductive Condition where
  | checksumMismatch
  | ackTimeout
  | abfTimeout
  | refreshTimeout
  | attemptsExhausted
  | handshakeTimeout
  | handshakeRejected
deriving DecidableEq, Repr

/-- What an operation returns to the host (10_state.md R36; log 4). -/
inductive Result where
  /-- Before the first operation, and after `OPEN` and `SEND`, which return nothing. -/
  | nothing
  /-- `TICK` (41_engine_core.md R111). -/
  | event (e : Event)
  /-- `READ_LAST` (R133). -/
  | lastPayload (p : Option I16)
  /-- `IS_OPEN` (R134). -/
  | openFlag (b : Bool)
  /-- `READ_STATUS` (R135). -/
  | status (w : BitVec 16)
deriving DecidableEq, Repr

/-- What another agent does: the host issues a word with its clock value and, for `OPEN`, a
configuration record (30_encoding.md R85), or the transport delivers a byte (20_memory.md R53).
The record that comes with an operation other than `OPEN` is not read. -/
inductive Input where
  | host (word : U32) (now : U32) (cfg : Cfg)
  | rxByte (b : Byte)
deriving DecidableEq, Repr

/-- Why a run ends. The first six are the host faults of 60_exceptions.md R205. -/
inductive Fault where
  /-- Code 16. Raised by `SEND` when `PHASE ≠ OPEN` or `STATE ≠ OK_CONTINUE`. Safe: R204, log 15. -/
  | sendNotReady
  /-- Code 17. Raised by `SEND` of an opcode value. Safe: R204, log 15. -/
  | sendReservedPayload
  /-- Code 18. Raised by `OPEN` when `PHASE ≠ NOT_OPEN`. Safe: R204, log 15. -/
  | openWhileActive
  /-- Code 19. Raised by `OPEN` when `VERSION` is an opcode value. Safe: R204, log 15. -/
  | badConfig
  /-- Code 20. Raised by the fetch of a reserved host word. Safe: R204, log 15. -/
  | reservedCommand
  /-- Code 21. Raised by `Decode` with fewer than four bytes; no rule reaches it. Safe: R204. -/
  | framingError
  /-- The model's own: a frame at a (`STATE`, `PHASE`) pair that 41_engine_core.md R126 gives no rule
  and calls unreachable. Raised by the frame rows and `TICK`. Safe: the model stops (log 10). -/
  | noDispatchRule
deriving DecidableEq, Repr

/-- Why an instruction has no meaning. -/
inductive Refusal where
  /-- Raised by `exec` for a row that has no meaning yet. Safe: the model stops. No row is left so. -/
  | notModelled (mnemonic : String)
deriving DecidableEq, Repr

/-- The state (10_state.md R21). The first thirteen fields are the spec's; the last six are the
model's own: the parameters (log 3), the operands of the operation in progress (log 1), what the
last operation returned (logs 4, 5) and the inputs to come (log 2). -/
structure State where
  /-- `STATE` (R22). -/
  state : EngineState
  /-- `PHASE` (R24). -/
  phase : Phase
  /-- `SEQ` (R28). -/
  seq : I16
  /-- `ABF_COUNT` (R29). -/
  abfCount : U8
  /-- `T_MARK` (R30). -/
  tMark : U32
  /-- `CFG` (R27). -/
  cfg : Cfg
  /-- `LAST_SENT` (R31). -/
  lastSent : SentRecord
  /-- `LAST_RECV` (R32). -/
  lastRecv : RecvRecord
  /-- `ACK_CTX` (R33). -/
  ackCtx : AckCtx
  /-- `INFO_BUF` (R34). -/
  infoBuf : Memory
  /-- `INFO_LEN` (R34). -/
  infoLen : Nat
  /-- `RXBUF`, oldest byte first (R35). -/
  rxbuf : List Byte
  /-- `TXLOG`, oldest byte first (R35). -/
  txlog : List Byte
  /-- `RX_DEPTH`, `INFO_MAX`, `INFO_FRAMING`: nothing writes them (00_scope.md R11 to R13). -/
  params : Params
  /-- The clock operand of the operation in progress (41_engine_core.md R115). -/
  now : U32
  /-- The configuration operand of the operation in progress (42_handshake.md R140). -/
  openCfg : Cfg
  /-- What the last operation returned (R36). -/
  result : Result
  /-- The conditions the last `TICK` met, in order (60_exceptions.md R201). -/
  conds : List Condition
  /-- The inputs that have not happened yet, the next one first. -/
  inbox : List Input
deriving DecidableEq, Repr

/-- The configuration record at reset. The spec leaves every field unspecified and no rule reads it
before `OPEN` writes it (10_state.md R38): DESIGN CHOICE, log 6. -/
def Cfg.zero : Cfg :=
  { timeout := 0, ackTimeout := 0, ackWait := 0, abfInterval := 0, refreshInterval := 0,
    maxAbfAttempts := 0, version := 0 }

/-- The machine right after power-on reset (10_state.md R38, 70_reset_and_hazards.md R221). The
fields of the invalid records (logs 7, 8) and of `CFG` (log 6) are DESIGN CHOICE. -/
def State.reset : State :=
  { state := .connectionClosed
    phase := .notOpen
    seq := 0
    abfCount := 0
    tMark := 0
    cfg := Cfg.zero
    lastSent := { valid := false, seq := 0, payload := 0, expected := 0 }
    lastRecv := { valid := false, seq := 0, payload := 0 }
    ackCtx := .data
    infoBuf := []
    infoLen := 0
    rxbuf := []
    txlog := []
    params := Config.params
    now := 0
    openCfg := Cfg.zero
    result := .nothing
    conds := []
    inbox := [] }

end Sys2Proof.Machine
end

