-- ==== Sys2Proof/Machine/Operands.lean ====
section
/-! DEFINITION. The operands of the engine's operations: the frame (30_encoding.md R71, R72), the
byte streams it is read from and written to, and the checksum values of 40_codec.md. -/

namespace Sys2Proof.Machine

open Sys2Proof

/-! ### The frame -/

/-- The frame of four bytes (30_encoding.md R71). -/
def frameOfBytes (b0 b1 b2 b3 : Byte) : Frame := { seq := b2 ++ b3, payload := b0 ++ b1 }

/-- `Encode` of a frame (40_codec.md R100). -/
def frameBytes (f : Frame) : List Byte := encodeFrame f.seq f.payload

/-! ### The decimal string and the checksums -/

/-- The decimal digits of `n`, most significant first, for `n < 10 ^ k`. -/
def digits : Nat → Nat → List Nat
  | 0, _ => []
  | k + 1, n => if n < 10 then [n] else digits k (n / 10) ++ [n % 10]

/-- `|v|`, at most 32768. -/
def magnitude (v : I16) : Nat := v.toInt.natAbs

/-- `DecimalString(v)` as ASCII codes (40_codec.md R103): a `'-'` (45) for a negative value, then
the digits (`'0'` is 48), with no leading zero. -/
def decimalString (v : I16) : List Nat :=
  (if v.toInt < 0 then [45] else []) ++ (digits 5 (magnitude v)).map (48 + ·)

/-- `Checksum(v)` (40_codec.md R104): the sum of the character codes, modulo 2^16. -/
def checksum (v : I16) : I16 := BitVec.ofNat 16 (decimalString v).sum

/-- `TERM`: what the terminator of an info message adds (40_codec.md R105). -/
def textTerm : Nat := 0

/-- `ChecksumText(t)` (40_codec.md R105): bytes count as unsigned, the sum is taken modulo 2^16. -/
def checksumText (t : List Byte) : I16 := BitVec.ofNat 16 ((t.map BitVec.toNat).sum + textTerm)

end Sys2Proof.Machine
end

