-- ==== Sys2Proof/Machine/Flags.lean ====
section
/-! DEFINITION. The tests and flag-like values of the engine: the deadline test (41_engine_core.md
R116), the tracker's comparison (R119), the codes of the control registers (10_state.md R22, R24,
R33), the codes of events, conditions and faults (60_exceptions.md R201, R202, R205), the status
word (41_engine_core.md R135), and the signalling of events and conditions. -/

namespace Sys2Proof.Machine

open Sys2Proof

/-- `elapsed(now, T, I)` (41_engine_core.md R116): the subtraction wraps and the test is unsigned. -/
def elapsed (now t interval : U32) : Bool := decide (interval ≤ now - t)

/-- The signed `r >= SEQ` of the tracker (41_engine_core.md R119; 00_scope.md R15). -/
def seqReached (r seq : I16) : Bool := decide (seq.toInt ≤ r.toInt)

/-- The code of `STATE` (10_state.md R22). -/
def EngineState.code : EngineState → BitVec 4
  | .waitingForSignal => 0
  | .okContinue => 1
  | .waitingForAsciiSum => 2
  | .waitingForAck => 3
  | .inAckTimeoutBuffer => 4
  | .waitingForInfoMessage => 5
  | .waitingForRepMessage => 6
  | .waitingForAnt => 7
  | .waitingForMoreAnt => 8
  | .connectionClosed => 9

/-- The code of `PHASE` (10_state.md R24). -/
def Phase.code : Phase → BitVec 3
  | .notOpen => 0
  | .hsWaitSoh => 1
  | .hsVersion => 2
  | .hsWaitEtx => 3
  | .opened => 4

/-- The code of `ACK_CTX` (10_state.md R33). -/
def AckCtx.code : AckCtx → BitVec 2
  | .data => 0
  | .stx => 1
  | .info => 2

/-- The code of an event (60_exceptions.md R202). -/
def Event.code : Event → Nat
  | .none => 0
  | .handshakeOk => 1
  | .handshakeFailed => 2
  | .connectionClosed => 3

/-- The code of a condition (60_exceptions.md R201). -/
def Condition.code : Condition → Nat
  | .checksumMismatch => 1
  | .ackTimeout => 2
  | .abfTimeout => 3
  | .refreshTimeout => 4
  | .attemptsExhausted => 5
  | .handshakeTimeout => 6
  | .handshakeRejected => 7

/-- The code of a host fault (60_exceptions.md R205); the model's own stop has none. -/
def Fault.code : Fault → Option Nat
  | .sendNotReady => some 16
  | .sendReservedPayload => some 17
  | .openWhileActive => some 18
  | .badConfig => some 19
  | .reservedCommand => some 20
  | .framingError => some 21
  | .noDispatchRule => none

/-- `READ_STATUS` (41_engine_core.md R135): `{ABF_COUNT, LAST_SENT.valid, PHASE, STATE}`. -/
def statusWord (s : State) : BitVec 16 :=
  s.abfCount ++ BitVec.ofBool s.lastSent.valid ++ s.phase.code ++ s.state.code

/-- `isOpen()` (10_state.md R26). -/
def openFlag (s : State) : Bool := decide (s.phase = .opened)

/-- `LAST_RECV.valid ? some(payload) : none` (41_engine_core.md R133). -/
def lastPayload (s : State) : Option I16 :=
  if s.lastRecv.valid then some s.lastRecv.payload else none

/-- `signal Event(e)` (00_scope.md R16): the tick in progress returns `e`. -/
def signal (e : Event) (s : State) : State := { s with result := .event e }

/-- The tick in progress meets an internal condition (60_exceptions.md R201). -/
def meet (c : Condition) (s : State) : State := { s with conds := s.conds ++ [c] }

/-- The start of a tick: `event <- NONE` (41_engine_core.md R111), and an empty trace. -/
def beginTick (s : State) : State := { s with result := .event .none, conds := [] }

end Sys2Proof.Machine
end

