-- ==== Sys2Proof/Machine/Ops.lean ====
section
/-! DEFINITION. The shared operations: `INFO_BUF`, the byte streams (20_memory.md R53, R54, R59), the
sequence counter (41_engine_core.md R117 to R119), the shared procedures (R120 to R125), and what
this engine has in the place of exceptions (60_exceptions.md R210, R211): entering recovery
(`sendAbf`), the return from it (`enterOkContinue`, `resend`, `confirm`), and closing
(`enterClosed`). -/

namespace Sys2Proof.Machine

open Sys2Proof

/-! ### `INFO_BUF` as an indexed store -/

/-- The byte at an index. -/
def Memory.read : Memory → Nat → Byte
  | [], _ => Memory.unlisted
  | (i, b) :: m, n => if i = n then b else Memory.read m n

/-- A cell before the rest, unless it says what an unlisted index reads as. -/
def Memory.cell (n : Nat) (v : Byte) (m : Memory) : Memory :=
  if v = Memory.unlisted then m else (n, v) :: m

/-- The store with byte `v` at index `n`; the canonical form is kept. -/
def Memory.write : Memory → Nat → Byte → Memory
  | [], n, v => Memory.cell n v []
  | (i, b) :: m, n, v =>
    if n < i then Memory.cell n v ((i, b) :: m)
    else if n = i then Memory.cell n v m
    else (i, b) :: Memory.write m n v

/-- The store with a run of bytes from index `n` on. -/
def Memory.writeRun : Memory → Nat → List Byte → Memory
  | m, _, [] => m
  | m, n, b :: bs => Memory.writeRun (Memory.write m n b) (n + 1) bs

/-- The bytes at indices `0 .. len - 1`. -/
def Memory.text (m : Memory) (len : Nat) : List Byte := (List.range len).map (Memory.read m)

/-! ### The byte streams -/

/-- `RxCount()` (20_memory.md R54). -/
def rxCount (s : State) : Nat := s.rxbuf.length

/-- `RxPush(b)` (20_memory.md R53): a byte that finds the buffer full is dropped. -/
def rxPush (b : Byte) (s : State) : State :=
  if s.rxbuf.length < s.params.rxDepth then { s with rxbuf := s.rxbuf ++ [b] } else s

/-- `Decode()` (40_codec.md R101): takes four bytes off the receive buffer. -/
def decodeRx (s : State) : Except Fault (Frame × State) :=
  match s.rxbuf with
  | b0 :: b1 :: b2 :: b3 :: rest => .ok (frameOfBytes b0 b1 b2 b3, { s with rxbuf := rest })
  | _ => .error .framingError

/-- The state in which the four bytes of `f` are still the oldest of the receive buffer. -/
def unread (f : Frame) (s : State) : State := { s with rxbuf := frameBytes f ++ s.rxbuf }

/-- `TxEmit(bytes)` (20_memory.md R59): the transport accepts every byte. -/
def txEmit (bytes : List Byte) (s : State) : State := { s with txlog := s.txlog ++ bytes }

/-- `EmitFrame(seq, payload)` (00_scope.md R16). -/
def emitFrame (seq payload : I16) (s : State) : State := txEmit (encodeFrame seq payload) s

/-! ### The sequence counter -/

/-- `EmitNew(p)` (41_engine_core.md R118): the frame takes the counter's number and the counter
advances, wrapping. -/
def emitNew (payload : I16) (s : State) : State :=
  { s with seq := s.seq + 1, txlog := s.txlog ++ encodeFrame s.seq payload }

/-- `TrackSeq(r)` (41_engine_core.md R119). -/
def trackSeq (r : I16) (s : State) : State :=
  if seqReached r s.seq then { s with seq := r + 1 } else s

/-! ### Shared procedures -/

/-- `STATE <- st; T_MARK <- now`: a wait starts (10_state.md R30). -/
def waitIn (st : EngineState) (s : State) : State := { s with state := st, tMark := s.now }

/-- `LAST_SENT.valid <- 0`: the other fields keep their values. -/
def dropLastSent (s : State) : State := { s with lastSent := { s.lastSent with valid := false } }

/-- `SendApp(p, now)` (41_engine_core.md R120). -/
def sendApp (p : I16) (s : State) : State :=
  { emitNew p s with
    lastSent := { valid := true, seq := s.seq, payload := p, expected := checksum p }
    state := .waitingForAsciiSum
    tMark := s.now }

/-- `Resend(now)` (41_engine_core.md R121). -/
def resend (s : State) : State :=
  waitIn .waitingForAsciiSum (emitFrame s.lastSent.seq s.lastSent.payload s)

/-- `AnswerAbf(now)` (41_engine_core.md R122): `STATE` is unchanged. -/
def answerAbf (s : State) : State := { emitNew Config.opcAnt s with tMark := s.now }

/-- The acknowledgement of a matching checksum reply, which starts the hold (43_steady_state.md
R153, 44_recovery.md R172). -/
def confirm (s : State) : State := waitIn .inAckTimeoutBuffer (emitNew Config.opcAck s)

/-- `DataReceive((seq, p), now)` (41_engine_core.md R123). -/
def dataReceive (f : Frame) (s : State) : State :=
  { emitNew (checksum f.payload) s with
    lastRecv := { valid := true, seq := f.seq, payload := f.payload }
    ackCtx := if f.payload = Config.opcStx then .stx else .data
    state := .waitingForAck
    tMark := s.now }

/-- `EnterOkContinue(now)` (41_engine_core.md R124). -/
def enterOkContinue (s : State) : State :=
  if s.phase = .hsVersion then
    { s with abfCount := 0, ackCtx := .data, state := .waitingForSignal, phase := .hsWaitEtx,
             tMark := s.now }
  else { s with abfCount := 0, ackCtx := .data, state := .okContinue }

/-- `AckReceived(now)` (41_engine_core.md R125). -/
def ackReceived (s : State) : State :=
  match s.ackCtx with
  | .stx => { s with abfCount := 0, ackCtx := .data, infoLen := 0,
                     state := .waitingForInfoMessage, tMark := s.now }
  | .info => enterOkContinue { s with infoLen := 0 }
  | .data => enterOkContinue s

/-- The event that a close returns (44_recovery.md R175). -/
def closingEvent (s : State) : Event :=
  if s.phase = .opened then .connectionClosed else .handshakeFailed

/-- `EnterClosed()` (44_recovery.md R175). -/
def enterClosed (s : State) : State :=
  { s with result := .event (closingEvent s), state := .connectionClosed, phase := .notOpen }

/-- `SendAbf(now)` (44_recovery.md R170): the one entry to recovery by an emitted `ABF`, and the
attempt bound. -/
def sendAbf (s : State) : State :=
  if s.cfg.maxAbfAttempts ≤ s.abfCount then enterClosed (meet .attemptsExhausted s)
  else { emitNew Config.opcAbf s with
         abfCount := s.abfCount + 1, state := .waitingForAnt, tMark := s.now }

/-- A host fault: the operation writes no state and the run ends (60_exceptions.md R204). -/
def hostFault (f : Fault) : Host.Outcome State Fault Refusal := .fault f

end Sys2Proof.Machine
end

