-- ==== Sys2Proof/Machine/Handshake.lean ====
section
/-! DEFINITION. The open handshake (42_handshake.md): the frame rules of `WAITING_FOR_SIGNAL` (R141,
R144) and its timer (R145), and the operation `OPEN` (R140). -/

namespace Sys2Proof.Machine

open Sys2Proof

/-- A frame while waiting for `SOH` (42_handshake.md R141): `SOH` sends the version, any other frame
is discarded. -/
def sohWaitFrame (f : Frame) (s : State) : State :=
  if f.payload = Config.opcSoh then
    sendApp s.cfg.version { s with state := .okContinue, phase := .hsVersion }
  else s

/-- A frame while waiting for `ETX` (42_handshake.md R144): the first frame decides. -/
def etxWaitFrame (f : Frame) (s : State) : State :=
  if f.payload = Config.opcEtx then
    signal .handshakeOk { s with phase := .opened, state := .okContinue }
  else enterClosed (meet .handshakeRejected s)

/-- The `ETX` wait expires (42_handshake.md R145). -/
def etxWaitExpired (s : State) : State := enterClosed (meet .handshakeTimeout s)

/-- `OPEN(cfg, now)` once its checks have passed (42_handshake.md R140); it returns nothing. `RXBUF` and `TXLOG` are not
written (20_memory.md R55). -/
def startHandshake (s : State) : State :=
  { s with
    cfg := s.openCfg
    seq := 0
    abfCount := 0
    lastSent := { s.lastSent with valid := false }
    lastRecv := { s.lastRecv with valid := false }
    ackCtx := .data
    infoLen := 0
    state := .waitingForSignal
    phase := .hsWaitSoh
    tMark := s.now
    result := .nothing }

/-- `OPEN` (42_handshake.md R140), the checks in its order (60_exceptions.md R206). -/
def execOpenSession (s : State) : Host.Outcome State Fault Refusal :=
  if s.phase ≠ .notOpen then hostFault .openWhileActive
  else if classify s.openCfg.version ≠ .data then hostFault .badConfig
  else .next (startHandshake s)

end Sys2Proof.Machine
end

