-- ==== Sys2Proof/Machine/Recovery.lean ====
section
/-! DEFINITION. Recovery by `ABF` and `ANT` (44_recovery.md): the frame rule that the three recovery
states share (R172, R173, R176, R177) and their timers (R174, R178). Sending `ABF` and closing (R170,
R175) are in Machine/Ops.lean. -/

namespace Sys2Proof.Machine

open Sys2Proof

/-- `RecoveryReceive` (44_recovery.md R172). -/
def recoveryFrame (f : Frame) (s : State) : State :=
  if f.payload = Config.opcAnt then waitIn .waitingForMoreAnt s
  else if f.payload = Config.opcAbf then answerAbf s
  else if s.lastSent.valid then
    if f.payload = s.lastSent.expected then confirm s else s
  else if f.payload = Config.opcAck then ackReceived s
  else dataReceive f s

/-- `ABF_INTERVAL` in `WAITING_FOR_ANT` (44_recovery.md R174). -/
def antExpired (s : State) : State := sendAbf (meet .abfTimeout s)

/-- `REFRESH_INTERVAL` in `WAITING_FOR_MORE_ANT` (44_recovery.md R178). -/
def moreAntExpired (s : State) : State :=
  let s1 := meet .refreshTimeout s
  if s.lastSent.valid then resend s1 else waitIn .waitingForRepMessage s1

end Sys2Proof.Machine
end

