-- ==== Sys2Proof/Machine/Steady.lean ====
section
/-! DEFINITION. The steady-state exchange, the acknowledgement hold and the info message
(43_steady_state.md), but for the frame that ends the hold, whose second dispatch stands in
Machine/Frames.lean (R158). The rules for `SendAbf` are in Machine/Ops.lean (44_recovery.md R170). -/

namespace Sys2Proof.Machine

open Sys2Proof

/-- A frame in `OK_CONTINUE` (43_steady_state.md R150, R151). -/
def okContinueFrame (f : Frame) (s : State) : State :=
  match classify f.payload with
  | .ant => waitIn .waitingForMoreAnt s
  | .abf => answerAbf s
  | _ => dataReceive f s

/-- A frame in `WAITING_FOR_ASCII_SUM` (43_steady_state.md R153): a matching checksum reply is
acknowledged, anything else is a mismatch and the Signal is sent again. -/
def asciiSumFrame (f : Frame) (s : State) : State :=
  if f.payload = s.lastSent.expected then confirm s
  else resend (meet .checksumMismatch s)

/-- `TIMEOUT` in `WAITING_FOR_ASCII_SUM` (43_steady_state.md R154). -/
def asciiSumExpired (s : State) : State := sendAbf (meet .ackTimeout s)

/-- A frame in `WAITING_FOR_ACK` (43_steady_state.md R155). -/
def ackWaitFrame (f : Frame) (s : State) : State :=
  match classify f.payload with
  | .ack => ackReceived s
  | .abf => answerAbf s
  | _ => dataReceive f s

/-- `ACK_TIMEOUT` in `WAITING_FOR_ACK` (43_steady_state.md R156). -/
def ackWaitExpired (s : State) : State := sendAbf (meet .ackTimeout s)

/-- The hold ends: `LAST_SENT.valid <- 0; EnterOkContinue(now)` (43_steady_state.md R158, R159). -/
def endHold (s : State) : State := enterOkContinue (dropLastSent s)

/-- `ACK_TIMEOUT` in the hold (43_steady_state.md R159). -/
def holdExpired (s : State) : State := endHold s

/-! ### The info message -/

/-- What the reading loop of 43_steady_state.md R160 leaves. -/
structure InfoRead where
  rest : List Byte
  buf : Memory
  len : Nat
  done : Bool
deriving DecidableEq, Repr

/-- The loop of `NUL_TERMINATED` (43_steady_state.md R160): byte by byte up to and including the first
0x00, while the buffer has room. -/
def readUntilNul (max : Nat) : List Byte → Memory → Nat → InfoRead
  | [], buf, len => { rest := [], buf := buf, len := len, done := false }
  | b :: bs, buf, len =>
    if len < max then
      if b = 0 then
        { rest := bs, buf := Memory.write buf len b, len := len + 1, done := true }
      else readUntilNul max bs (Memory.write buf len b) (len + 1)
    else { rest := b :: bs, buf := buf, len := len, done := false }

/-- The read of one tick in either framing (43_steady_state.md R160; 30_encoding.md R84). -/
def readInfo (s : State) : InfoRead :=
  match s.params.infoFraming with
  | .available =>
    let n := min (rxCount s) s.params.infoMax
    { rest := s.rxbuf.drop n, buf := Memory.writeRun s.infoBuf 0 (s.rxbuf.take n), len := n,
      done := true }
  | .nulTerminated =>
    let r := readUntilNul s.params.infoMax s.rxbuf s.infoBuf s.infoLen
    { r with done := r.done || decide (r.len = s.params.infoMax) }

/-- The message is complete: its checksum is sent and its acknowledgement awaited (43_steady_state.md
R160). -/
def infoDone (s : State) : State :=
  let sum := checksumText (Memory.text s.infoBuf s.infoLen)
  { emitNew sum s with ackCtx := .info, state := .waitingForAck, tMark := s.now }

/-- `InfoStep(now)` (43_steady_state.md R160). -/
def infoStep (s : State) : State :=
  let r := readInfo s
  let s1 := { s with rxbuf := r.rest, infoBuf := r.buf, infoLen := r.len }
  if r.done then infoDone s1 else s1

end Sys2Proof.Machine
end

