-- ==== Sys2Proof/Machine/Frames.lean ====
section
/-! DEFINITION. The dispatch of frames by state (41_engine_core.md R126), the timer table (R127), and
the meaning of each frame row (30_encoding.md R75 to R82). -/

namespace Sys2Proof.Machine

open Sys2Proof

/-- The dispatch table (41_engine_core.md R126) without the hold; `none` where it gives no rule. -/
def dispatchOutsideHold (f : Frame) (s : State) : Option State :=
  match s.state with
  | .waitingForSignal =>
    match s.phase with
    | .hsWaitSoh => some (sohWaitFrame f s)
    | .hsWaitEtx => some (etxWaitFrame f s)
    | .notOpen => none
    | .hsVersion => none
    | .opened => none
  | .okContinue => some (okContinueFrame f s)
  | .waitingForAsciiSum => some (asciiSumFrame f s)
  | .waitingForAck => some (ackWaitFrame f s)
  | .inAckTimeoutBuffer => none
  | .waitingForAnt => some (recoveryFrame f s)
  | .waitingForMoreAnt => some (recoveryFrame f s)
  | .waitingForRepMessage => some (recoveryFrame f s)
  | .waitingForInfoMessage => none
  | .connectionClosed => none

/-- A frame in the hold (43_steady_state.md R157, R158): `ABF` is answered, a duplicate checksum reply
restarts the hold, and any other frame ends it and is dispatched in the state it leads to. -/
def holdFrame (f : Frame) (s : State) : Option State :=
  if f.payload = Config.opcAbf then some (answerAbf s)
  else if f.payload = s.lastSent.expected then some { s with tMark := s.now }
  else dispatchOutsideHold f (endHold s)

/-- `Dispatch(f, now)` (41_engine_core.md R126). -/
def dispatch (f : Frame) (s : State) : Option State :=
  if s.state = .inAckTimeoutBuffer then holdFrame f s else dispatchOutsideHold f s

/-- The interval a tick without a frame tests (41_engine_core.md R127); `none` where none is timed. -/
def timerInterval (s : State) : Option U32 :=
  match s.state with
  | .waitingForSignal => if s.phase = .hsWaitEtx then some s.cfg.timeout else none
  | .okContinue => none
  | .waitingForAsciiSum => some s.cfg.timeout
  | .waitingForAck => some s.cfg.ackTimeout
  | .inAckTimeoutBuffer => some s.cfg.ackTimeout
  | .waitingForInfoMessage => none
  | .waitingForRepMessage => none
  | .waitingForAnt => some s.cfg.abfInterval
  | .waitingForMoreAnt => some s.cfg.refreshInterval
  | .connectionClosed => none

/-- The rule on expiry (41_engine_core.md R127). -/
def timerExpired (s : State) : State :=
  match s.state with
  | .waitingForSignal => etxWaitExpired s
  | .okContinue => s
  | .waitingForAsciiSum => asciiSumExpired s
  | .waitingForAck => ackWaitExpired s
  | .inAckTimeoutBuffer => holdExpired s
  | .waitingForInfoMessage => s
  | .waitingForRepMessage => s
  | .waitingForAnt => antExpired s
  | .waitingForMoreAnt => moreAntExpired s
  | .connectionClosed => s

/-- `TimerStep(now)` (41_engine_core.md R127). -/
def timerStep (s : State) : State :=
  match timerInterval s with
  | some interval => if elapsed s.now s.tMark interval then timerExpired s else s
  | none => s

/-- The outcome of a dispatch: the rule's state, or the stop where no rule is given (log 10). -/
def ruled : Option State → Host.Outcome State Fault Refusal
  | some t => .next t
  | none => hostFault .noDispatchRule

/-- The tick that meets `f` as the next four bytes, from the state in which they are already off the
receive buffer (41_engine_core.md R111). A closed engine does not accept them, so they stay in the
buffer (20_memory.md R55); while an info message is awaited they are text (43_steady_state.md R161);
otherwise the frame is tracked and dispatched. See log 11. -/
def meetFrame (f : Frame) (s : State) : Host.Outcome State Fault Refusal :=
  let s0 := beginTick s
  if s.phase = .notOpen then .next (unread f s0)
  else if s.state = .waitingForInfoMessage then .next (infoStep (unread f s0))
  else ruled (dispatch f (trackSeq f.seq s0))

/-- A `SOH` frame (30_encoding.md R75). -/
def execSoh (seq : I16) (s : State) : Host.Outcome State Fault Refusal :=
  meetFrame { seq := seq, payload := Config.opcSoh } s

/-- An `STX` frame (30_encoding.md R76). -/
def execStx (seq : I16) (s : State) : Host.Outcome State Fault Refusal :=
  meetFrame { seq := seq, payload := Config.opcStx } s

/-- An `ETX` frame (30_encoding.md R77). -/
def execEtx (seq : I16) (s : State) : Host.Outcome State Fault Refusal :=
  meetFrame { seq := seq, payload := Config.opcEtx } s

/-- An `EOT` frame (30_encoding.md R78). -/
def execEot (seq : I16) (s : State) : Host.Outcome State Fault Refusal :=
  meetFrame { seq := seq, payload := Config.opcEot } s

/-- An `ACK` frame (30_encoding.md R79). -/
def execAck (seq : I16) (s : State) : Host.Outcome State Fault Refusal :=
  meetFrame { seq := seq, payload := Config.opcAck } s

/-- An `ABF` frame (30_encoding.md R80). -/
def execAbf (seq : I16) (s : State) : Host.Outcome State Fault Refusal :=
  meetFrame { seq := seq, payload := Config.opcAbf } s

/-- An `ANT` frame (30_encoding.md R81). -/
def execAnt (seq : I16) (s : State) : Host.Outcome State Fault Refusal :=
  meetFrame { seq := seq, payload := Config.opcAnt } s

/-- A `DATA` frame (30_encoding.md R82). -/
def execData (payload seq : I16) (s : State) : Host.Outcome State Fault Refusal :=
  meetFrame { seq := seq, payload := payload } s

/-- The meaning of the row a frame's class picks (30_encoding.md R74). -/
def runFrame (f : Frame) (s : State) : Host.Outcome State Fault Refusal :=
  match classify f.payload with
  | .soh => execSoh f.seq s
  | .stx => execStx f.seq s
  | .etx => execEtx f.seq s
  | .eot => execEot f.seq s
  | .ack => execAck f.seq s
  | .abf => execAbf f.seq s
  | .ant => execAnt f.seq s
  | .data => execData f.payload f.seq s

end Sys2Proof.Machine
end

