-- ==== Sys2Proof/Machine/HostOps.lean ====
section
/-! DEFINITION. The host operations other than `OPEN` (41_engine_core.md R110 to R135). -/

namespace Sys2Proof.Machine

open Sys2Proof

/-- `TICK(now)` (41_engine_core.md R111, R112): in an open session or handshake, read info text, or
consume one frame, or test one timer, in that order. -/
def execTick (s : State) : Host.Outcome State Fault Refusal :=
  let s0 := beginTick s
  if s.phase = .notOpen then .next s0
  else if s.state = .waitingForInfoMessage then
    .next (if 1 ≤ rxCount s then infoStep s0 else s0)
  else if 4 ≤ rxCount s then
    match decodeRx s0 with
    | .ok (f, t) => runFrame f t
    | .error e => hostFault e
  else .next (timerStep s0)

/-- `SEND(p, now)` (41_engine_core.md R132), the checks in its order (60_exceptions.md R206). -/
def execSend (p : I16) (s : State) : Host.Outcome State Fault Refusal :=
  if s.phase ≠ .opened ∨ s.state ≠ .okContinue then hostFault .sendNotReady
  else if classify p ≠ .data then hostFault .sendReservedPayload
  else .next { sendApp p s with result := .nothing }

/-- `READ_LAST()` (41_engine_core.md R133). -/
def execReadLast (s : State) : Host.Outcome State Fault Refusal :=
  .next ({ s with result := .lastPayload (lastPayload s) })

/-- `IS_OPEN()` (41_engine_core.md R134). -/
def execIsOpen (s : State) : Host.Outcome State Fault Refusal :=
  .next ({ s with result := .openFlag (openFlag s) })

/-- `READ_STATUS()` (41_engine_core.md R135). -/
def execReadStatus (s : State) : Host.Outcome State Fault Refusal :=
  .next ({ s with result := .status (statusWord s) })

end Sys2Proof.Machine
end

