-- ==== Sys2Proof/Machine/Dispatch.lean ====
section
/-! DEFINITION. The meaning of every row of spec/opcode_table.json, one arm each. -/

namespace Sys2Proof.Machine

open Sys2Proof

def exec (i : Instr) (s : State) : Host.Outcome State Fault Refusal :=
  match i with
  | .soh seq => Sys2Proof.Machine.execSoh seq s
  | .stx seq => Sys2Proof.Machine.execStx seq s
  | .etx seq => Sys2Proof.Machine.execEtx seq s
  | .eot seq => Sys2Proof.Machine.execEot seq s
  | .ack seq => Sys2Proof.Machine.execAck seq s
  | .abf seq => Sys2Proof.Machine.execAbf seq s
  | .ant seq => Sys2Proof.Machine.execAnt seq s
  | .data payload seq => Sys2Proof.Machine.execData payload seq s
  | .tick => Sys2Proof.Machine.execTick s
  | .openSession => Sys2Proof.Machine.execOpenSession s
  | .send payload => Sys2Proof.Machine.execSend payload s
  | .readLast => Sys2Proof.Machine.execReadLast s
  | .isOpen => Sys2Proof.Machine.execIsOpen s
  | .readStatus => Sys2Proof.Machine.execReadStatus s

end Sys2Proof.Machine
end

