-- ==== Sys2Proof/Machine/Fetch.lean ====
section
/-! DEFINITION. Where the next operation comes from. The engine fetches nothing of itself (20_memory.md
R51): the host issues a word, or the transport delivers a byte, and State holds these inputs in
order (10_state.md R20; log 2). -/

namespace Sys2Proof.Machine

open Sys2Proof

/-- What the next input asks for. -/
inductive Fetched where
  /-- No operation: the state after the transport's byte, or the idle state. -/
  | between (s : State)
  /-- An operation and the state that holds its operands. -/
  | run (i : Instr) (s : State)
  /-- A reserved host word. -/
  | stop (f : Fault)
deriving DecidableEq, Repr

/-- The next input: a delivered byte goes to the receive buffer (20_memory.md R53); a host word is
decoded, and its side operands are latched (30_encoding.md R85, 41_engine_core.md R115); a reserved
word is the fault `ReservedCommand` (R136), found before any other check (60_exceptions.md R206).
With no input the engine is idle (41_engine_core.md R110). -/
def fetch (s : State) : Fetched :=
  match s.inbox with
  | [] => .between s
  | .rxByte b :: rest => .between (rxPush b { s with inbox := rest })
  | .host word now cfg :: rest =>
    match decodeHostCmd word with
    | .ok i => .run i { s with inbox := rest, now := now, openCfg := cfg }
    | .error _ => .stop .reservedCommand

/-- The control state in which the next tick takes a frame (41_engine_core.md R111): where a closed
engine or one that awaits text would not, an open session with no exchange in progress (log 13). -/
def acceptFrames (s : State) : State :=
  if s.phase = .notOpen then { s with phase := .opened, state := .okContinue }
  else if s.state = .waitingForInfoMessage then { s with state := .okContinue }
  else s

/-- `s` with the instruction of a table word as the next one that runs (log 13). A host word becomes
the next input; a frame takes the place of the oldest four bytes of the receive buffer, and the
next input is the `TICK` that consumes it. -/
def placeWord (s : State) (w : U32) : State :=
  match decodeHostCmd w with
  | .ok _ => { s with inbox := .host w s.now s.openCfg :: s.inbox }
  | .error _ =>
    let t := acceptFrames { s with rxbuf := wordToBytes w ++ s.rxbuf.drop 4 }
    { t with inbox := .host (encode .tick) t.now t.openCfg :: t.inbox }

end Sys2Proof.Machine
end

