-- ==== Sys2Proof/Machine/Step.lean ====
section
/-! DEFINITION. One step of the machine: the next input happens, whole (00_scope.md R17). -/

namespace Sys2Proof.Machine

open Sys2Proof

/-- One atomic step (00_scope.md R17, 20_memory.md R61): an operation of the host, a byte from the
transport, or, with no input left, nothing (41_engine_core.md R110). -/
def step (s : State) : Host.Outcome State Fault Refusal :=
  match fetch s with
  | .between t => .next t
  | .run i t => exec i t
  | .stop f => hostFault f

/-- `s` with the instruction whose bits are `w` as the one the very next step runs (log 13). -/
def State.withFetchWord (s : State) (_nbits w : Nat) : State := placeWord s (BitVec.ofNat 32 w)

end Sys2Proof.Machine
end

