-- ==== Sys2Proof/Safety.lean ====
section
/-! DEFINITION. The terms in which claims about the engine are made: the invariant of its states
(10_state.md R23 to R37), the duty of the host (60_exceptions.md R204, R205), a run that ends in no
fault, and the values that the rules compute, written apart from the machine. -/

namespace Sys2Proof

open Sys2Proof.Machine

/-- The (`STATE`, `PHASE`) pairs that are reachable: the table of 41_engine_core.md R126, the info
wait of an open session, and the closed engine (10_state.md R25). -/
def legalPair : EngineState → Phase → Bool
  | .waitingForSignal, .hsWaitSoh => true
  | .waitingForSignal, .hsWaitEtx => true
  | .okContinue, .opened => true
  | .waitingForAsciiSum, .hsVersion => true
  | .waitingForAsciiSum, .opened => true
  | .waitingForAck, .opened => true
  | .inAckTimeoutBuffer, .hsVersion => true
  | .inAckTimeoutBuffer, .opened => true
  | .waitingForAnt, .hsVersion => true
  | .waitingForAnt, .opened => true
  | .waitingForMoreAnt, .hsVersion => true
  | .waitingForMoreAnt, .opened => true
  | .waitingForRepMessage, .opened => true
  | .waitingForInfoMessage, .opened => true
  | .connectionClosed, .notOpen => true
  | _, _ => false

/-- The states in which `LAST_SENT.valid` may be 1 (10_state.md R37). -/
def maySend : EngineState → Bool
  | .waitingForAsciiSum => true
  | .inAckTimeoutBuffer => true
  | .waitingForAnt => true
  | .waitingForMoreAnt => true
  | .connectionClosed => true
  | _ => false

/-- The states in which no exchange is in progress, so that the attempt counter and `ACK_CTX` are
clear (41_engine_core.md R124, R125; 42_handshake.md R140). -/
def betweenExchanges : EngineState → Bool
  | .waitingForSignal => true
  | .okContinue => true
  | .waitingForInfoMessage => true
  | _ => false

/-- Every cell of a store lies below a bound. -/
def Machine.Memory.below (m : Memory) (n : Nat) : Bool := m.all (fun c => decide (c.1 < n))

/-- What holds in every state the engine can be in. -/
structure Inv (s : State) : Prop where
  /-- 00_scope.md R11, R12. -/
  params : s.params.Legal
  /-- 10_state.md R25, 41_engine_core.md R126. -/
  pair : legalPair s.state s.phase = true
  /-- 10_state.md R29. -/
  attempts : s.abfCount ≤ s.cfg.maxAbfAttempts
  /-- 10_state.md R37: stop and wait. -/
  sentOnlyThere : s.lastSent.valid = true → maySend s.state = true
  /-- 43_steady_state.md R153, R158: the two states that compare with `LAST_SENT` hold one, and so
  does the whole of the `VERSION` exchange (42_handshake.md R143). -/
  sentIsThere : s.state = .waitingForAsciiSum ∨ s.state = .inAckTimeoutBuffer ∨
    s.phase = .hsVersion → s.lastSent.valid = true
  /-- 10_state.md R31. -/
  sentRecord : s.lastSent.valid = true →
    s.lastSent.expected = checksum s.lastSent.payload ∧ classify s.lastSent.payload = .data
  /-- 41_engine_core.md R124, R125. -/
  clear : betweenExchanges s.state = true → s.abfCount = 0 ∧ s.ackCtx = .data
  /-- 10_state.md R27. -/
  version : s.phase ≠ .notOpen → classify s.cfg.version = .data
  /-- 10_state.md R35, 20_memory.md R53. -/
  rxBound : s.rxbuf.length ≤ s.params.rxDepth
  /-- 20_memory.md R59: the transmit stream is whole frames. -/
  txFrames : s.txlog.length % 4 = 0
  /-- 10_state.md R34. -/
  infoBound : s.infoLen ≤ s.params.infoMax
  /-- 43_steady_state.md R160: an incomplete message leaves room for a byte. -/
  infoRoom : s.state = .waitingForInfoMessage → s.infoLen < s.params.infoMax
  /-- The one form of the contents of `INFO_BUF`. -/
  infoForm : Memory.wf s.infoBuf = true
  /-- 10_state.md R34: `INFO_BUF` has `INFO_MAX` bytes. -/
  infoInside : Memory.below s.infoBuf s.params.infoMax = true

/-- What the host owes an operation (41_engine_core.md R132, 42_handshake.md R140). Nothing is owed
for the others. -/
def HostDuty : Instr → State → Prop
  | .soh _, _ => True
  | .stx _, _ => True
  | .etx _, _ => True
  | .eot _, _ => True
  | .ack _, _ => True
  | .abf _, _ => True
  | .ant _, _ => True
  | .data _ _, _ => True
  | .tick, _ => True
  | .openSession, s => s.phase = .notOpen ∧ classify s.openCfg.version = .data
  | .send p, s => s.phase = .opened ∧ s.state = .okContinue ∧ classify p = .data
  | .readLast, _ => True
  | .isOpen, _ => True
  | .readStatus, _ => True

/-- A run of `k` inputs that ends in no fault (60_exceptions.md R204). -/
def SafeRun (k : Nat) (s : State) : Prop := ∃ t, Host.Core.run Sys2Proof.core k s = .next t

/-- The sequence counter once a frame of sequence number `q` is tracked (41_engine_core.md R119). -/
def trackedSeq (q seq : I16) : I16 := if seq.toInt ≤ q.toInt then q + 1 else seq

/-- The state in which a frame of sequence number `q` is handled: `event <- NONE` (41_engine_core.md
R111), an empty trace, and the counter tracked (R119). -/
def tracked (q : I16) (s : State) : State :=
  { s with seq := trackedSeq q s.seq, result := .event .none, conds := [] }

/-- The state in which a tick that takes no frame goes on: `event <- NONE` (41_engine_core.md R111)
and an empty trace. -/
def ticked (s : State) : State := { s with result := .event .none, conds := [] }

/-! ### What the rules leave, as states written out in full

Each is the state after a tick that takes a frame of sequence number `q` (or, for the timers, no
frame), given the state before that tick. -/

/-- The exchange is complete (41_engine_core.md R124): `WAITING_FOR_SIGNAL` in the `VERSION`
exchange, else `OK_CONTINUE`. -/
def exchangeDone (s : State) : State :=
  if s.phase = .hsVersion then
    { s with abfCount := 0, ackCtx := .data, state := .waitingForSignal, phase := .hsWaitEtx,
             tMark := s.now }
  else { s with abfCount := 0, ackCtx := .data, state := .okContinue }

/-- The hold is over (43_steady_state.md R158, R159). -/
def holdOver (s : State) : State :=
  exchangeDone { s with lastSent := { s.lastSent with valid := false } }

/-- A data frame is answered with its checksum (41_engine_core.md R123). -/
def dataAnswered (q p : I16) (s : State) : State :=
  { tracked q s with
    lastRecv := { valid := true, seq := q, payload := p }
    ackCtx := if p = 0x0002 then .stx else .data
    seq := trackedSeq q s.seq + 1
    txlog := s.txlog ++ encodeFrame (trackedSeq q s.seq) (checksum p)
    state := .waitingForAck
    tMark := s.now }

/-- `ABF` is answered with `ANT` (41_engine_core.md R122). -/
def abfAnswered (q : I16) (s : State) : State :=
  { tracked q s with
    seq := trackedSeq q s.seq + 1
    txlog := s.txlog ++ encodeFrame (trackedSeq q s.seq) 0x0016
    tMark := s.now }

/-- A matching checksum reply is answered with `ACK` and the hold starts (43_steady_state.md R153). -/
def replyConfirmed (q : I16) (s : State) : State :=
  { tracked q s with
    seq := trackedSeq q s.seq + 1
    txlog := s.txlog ++ encodeFrame (trackedSeq q s.seq) 0x0006
    state := .inAckTimeoutBuffer
    tMark := s.now }

/-- `ANT` starts or extends the wait for more (44_recovery.md R172). -/
def antNoted (q : I16) (s : State) : State :=
  { tracked q s with state := .waitingForMoreAnt, tMark := s.now }

/-- `ACK` completes the wait for it (41_engine_core.md R125). -/
def ackTaken (q : I16) (s : State) : State :=
  match s.ackCtx with
  | .stx => { tracked q s with abfCount := 0, ackCtx := .data, infoLen := 0,
                               state := .waitingForInfoMessage, tMark := s.now }
  | .info => exchangeDone { tracked q s with infoLen := 0 }
  | .data => exchangeDone (tracked q s)

/-- The connection closes, after the conditions `cs` (44_recovery.md R175). -/
def closedAfter (cs : List Condition) (s : State) : State :=
  { s with state := .connectionClosed, phase := .notOpen, conds := cs,
           result := .event (if s.phase = .opened then .connectionClosed else .handshakeFailed) }

/-- `SOH` is answered with the version, sent as an application Signal (42_handshake.md R141). -/
def versionSent (q : I16) (s : State) : State :=
  { tracked q s with
    phase := .hsVersion
    lastSent := { valid := true, seq := trackedSeq q s.seq, payload := s.cfg.version,
                  expected := checksum s.cfg.version }
    seq := trackedSeq q s.seq + 1
    txlog := s.txlog ++ encodeFrame (trackedSeq q s.seq) s.cfg.version
    state := .waitingForAsciiSum
    tMark := s.now }

/-- `ETX` opens the session (42_handshake.md R144). -/
def sessionOpened (q : I16) (s : State) : State :=
  { tracked q s with
    phase := .opened, state := .okContinue, result := .event .handshakeOk }

/-- The outstanding Signal is sent again, unchanged, by condition `c` (41_engine_core.md R121). -/
def signalResent (c : Condition) (s : State) : State :=
  { s with
    conds := [c]
    txlog := s.txlog ++ encodeFrame s.lastSent.seq s.lastSent.payload
    state := .waitingForAsciiSum
    tMark := s.now }

/-- A wait for the peer is over, by condition `c`: one more `ABF`, or, when the attempts are used up,
the close (44_recovery.md R170). -/
def abfAttempt (c : Condition) (s : State) : State :=
  if s.cfg.maxAbfAttempts.toNat ≤ s.abfCount.toNat then closedAfter [c, .attemptsExhausted] s
  else
    { s with result := .event .none, conds := [c], abfCount := s.abfCount + 1, seq := s.seq + 1,
             txlog := s.txlog ++ encodeFrame s.seq 0x0015, state := .waitingForAnt,
             tMark := s.now }

/-- The info message now in `buf` is complete and its checksum is sent (43_steady_state.md R160). -/
def textAnswered (rest : List Byte) (buf : Memory) (len : Nat) (s : State) : State :=
  { ticked s with
    rxbuf := rest, infoBuf := buf, infoLen := len, ackCtx := .info, seq := s.seq + 1
    txlog := s.txlog ++ encodeFrame s.seq (checksumText (Memory.text buf len))
    state := .waitingForAck, tMark := s.now }

/-- The state waits with this interval (41_engine_core.md R127). -/
def TimedBy (s : State) (interval : U32) : Prop :=
  (s.state = .waitingForSignal ∧ s.phase = .hsWaitEtx ∧ interval = s.cfg.timeout) ∨
  (s.state = .waitingForAsciiSum ∧ interval = s.cfg.timeout) ∨
  (s.state = .waitingForAck ∧ interval = s.cfg.ackTimeout) ∨
  (s.state = .inAckTimeoutBuffer ∧ interval = s.cfg.ackTimeout) ∨
  (s.state = .waitingForAnt ∧ interval = s.cfg.abfInterval) ∨
  (s.state = .waitingForMoreAnt ∧ interval = s.cfg.refreshInterval)

/-- A tick that takes no frame and reads no text: an open session or handshake, fewer than four bytes
(41_engine_core.md R111). -/
def NoFrame (s : State) : Prop :=
  s.phase ≠ .notOpen ∧ s.state ≠ .waitingForInfoMessage ∧ s.rxbuf.length < 4

/-- A wait in progress has run its time (41_engine_core.md R116), on the numbers themselves. -/
def Expired (now t interval : U32) : Prop :=
  interval.toNat ≤ (now.toNat + (2 ^ 32 - t.toNat)) % 2 ^ 32

/-- The payloads with their frame rows (spec/opcode_table.json): every frame instruction of sequence
number `q`, and the payload it carries. -/
def FrameRow (i : Instr) (q p : I16) : Prop :=
  (i = .soh q ∧ p = 0x0001) ∨ (i = .stx q ∧ p = 0x0002) ∨ (i = .etx q ∧ p = 0x0003) ∨
  (i = .eot q ∧ p = 0x0004) ∨ (i = .ack q ∧ p = 0x0006) ∨ (i = .abf q ∧ p = 0x0015) ∨
  (i = .ant q ∧ p = 0x0016) ∨ (i = .data p q ∧ i.WellFormed)

/-- The host ticks at each of these clock values and the transport delivers nothing. -/
def runTicks : List U32 → State → Host.Outcome State Fault Refusal
  | [], s => .next s
  | t :: ts, s =>
    match exec .tick { s with now := t } with
    | .next s' => runTicks ts s'
    | .fault f => .fault f
    | .refused r => .refused r

/-- `n` clock values from `t` on, `d` apart. -/
def clockFrom (t d : U32) : Nat → List U32
  | 0 => []
  | n + 1 => t :: clockFrom (t + d) d n

/-- The bytes of `n` `ABF` frames with the sequence numbers from `q` on. -/
def abfFrames (q : I16) : Nat → List Byte
  | 0 => []
  | n + 1 => encodeFrame q 0x0015 ++ abfFrames (q + 1) n

/-- The payloads of the whole frames of a byte stream, in order: of every four bytes the first two
(30_encoding.md R71), without the sequence fields. -/
def sentPayloads : List Byte → List I16
  | b0 :: b1 :: _ :: _ :: rest => (b0 ++ b1) :: sentPayloads rest
  | _ => []

/-- Two states that differ in sequence numbers alone: the counter, the sequence fields of the
records, and the sequence bytes of the transmitted frames. Both transmit streams are whole frames
(20_memory.md R59), with the same payloads. -/
structure SameButSeq (s t : State) : Prop where
  state : s.state = t.state
  phase : s.phase = t.phase
  abfCount : s.abfCount = t.abfCount
  tMark : s.tMark = t.tMark
  cfg : s.cfg = t.cfg
  sentValid : s.lastSent.valid = t.lastSent.valid
  sentPayload : s.lastSent.payload = t.lastSent.payload
  sentExpected : s.lastSent.expected = t.lastSent.expected
  recvValid : s.lastRecv.valid = t.lastRecv.valid
  recvPayload : s.lastRecv.payload = t.lastRecv.payload
  ackCtx : s.ackCtx = t.ackCtx
  infoBuf : s.infoBuf = t.infoBuf
  infoLen : s.infoLen = t.infoLen
  rxbuf : s.rxbuf = t.rxbuf
  txFrames : s.txlog.length % 4 = 0
  txFrames' : t.txlog.length % 4 = 0
  txPayloads : sentPayloads s.txlog = sentPayloads t.txlog
  params : s.params = t.params
  now : s.now = t.now
  openCfg : s.openCfg = t.openCfg
  result : s.result = t.result
  conds : s.conds = t.conds
  inbox : s.inbox = t.inbox

/-- `ACK_WAIT` replaced, in the latched configuration and in the operand of `OPEN`. -/
def withAckWait (v : U32) (s : State) : State :=
  { s with cfg := { s.cfg with ackWait := v }, openCfg := { s.openCfg with ackWait := v } }

/-- The state of a `next` outcome. -/
def nextState (o : Host.Outcome State Fault Refusal) : Option State :=
  match o with
  | .next s => some s
  | .fault _ => none
  | .refused _ => none

end Sys2Proof
end

