-- ==== Sys2Proof/Certificates/Slice0/Obligations.lean ====
section
/-! DEFINITION. The statements about the SCOM engine, for the provers. They say what the numbered
rules of spec/ say, for every state and operand; the states that the rules leave are written out in
full in Safety.lean. The fields `inbox`, `now`, `openCfg`, `result`, `conds` and `params` of State
are the model's own (logs 1 to 5). Where a statement rests on a further choice of the model, or on an
inference that the spec marks as its own ("derived: from ..."), its docstring says so. -/

open Sys2Proof Sys2Proof.Machine

/-! ### Encodings -/

/-- Words written out from 30_encoding.md R71, R73, R85 and R86 decode to the rows they stand for. -/
def Obligations.WrittenWordsDecode : Prop :=
  decode .frame32 0x00010000 = .ok (.soh 0) ∧
  decode .frame32 0x00020003 = .ok (.stx 3) ∧
  decode .frame32 0x00030002 = .ok (.etx 2) ∧
  decode .frame32 0x0004FFFF = .ok (.eot 0xFFFF) ∧
  decode .frame32 0x00060008 = .ok (.ack 8) ∧
  decode .frame32 0x0015000F = .ok (.abf 15) ∧
  decode .frame32 0x00160014 = .ok (.ant 20) ∧
  decode .frame32 0x00640007 = .ok (.data 100 7) ∧
  decode .hostcmd 0x00000000 = .ok .tick ∧
  decode .hostcmd 0x10000000 = .ok .openSession ∧
  decode .hostcmd 0x2000FFFB = .ok (.send 0xFFFB) ∧
  decode .hostcmd 0x30000000 = .ok .readLast ∧
  decode .hostcmd 0x40000000 = .ok .isOpen ∧
  decode .hostcmd 0x50000000 = .ok .readStatus

/-- Decoding the encoding of a well-formed instruction gives it back, with every operand (30_encoding.md
R71, R73, R85, R86). -/
def Obligations.EncodeThenDecode : Prop :=
  ∀ i : Instr, i.WellFormed → decode i.format (encode i) = .ok i

/-- Each word of a format has one meaning: what a word decodes to is well-formed, of that format, and
encodes to that word. -/
def Obligations.DecodeThenEncode : Prop :=
  ∀ (fmt : Format) (w : U32) (i : Instr), decode fmt w = .ok i →
    i.WellFormed ∧ i.format = fmt ∧ encode i = w

/-- Every 32-bit word is a frame, of the row that its upper half names, with the sequence number of its
lower half (30_encoding.md R71, R74). -/
def Obligations.EveryWordIsTheFrameOfItsPayload : Prop :=
  ∀ p q : I16, FrameRow (decodeFrame (p ++ q)) q p ∧
    (classify p = .data ↔ p ∉ [0x0001, 0x0002, 0x0003, 0x0004, 0x0006, 0x0015, 0x0016])

/-- `Encode` (40_codec.md R100): payload first, each field high byte first. -/
def Obligations.EncodeIsBigEndian : Prop :=
  ∀ q p : I16, (encodeFrame q p).map BitVec.toNat =
    [p.toNat / 256, p.toNat % 256, q.toNat / 256, q.toNat % 256]

/-- `Decode` undoes `Encode` and `Encode` undoes `Decode`, in the receive buffer (40_codec.md R102, which
the spec derives). -/
def Obligations.FrameBytesRoundTrip : Prop :=
  (∀ (s : State) (f : Frame) (rest : List Byte), s.rxbuf = encodeFrame f.seq f.payload ++ rest →
    decodeRx s = .ok (f, { s with rxbuf := rest })) ∧
  (∀ (s : State) (b0 b1 b2 b3 : Byte) (rest : List Byte), s.rxbuf = b0 :: b1 :: b2 :: b3 :: rest →
    ∃ f : Frame, decodeRx s = .ok (f, { s with rxbuf := rest }) ∧
      encodeFrame f.seq f.payload = [b0, b1, b2, b3])

/-- `Decode` (40_codec.md R101): payload in the first two bytes, sequence number in the next two, high
byte first; with fewer than four bytes it is the fault `FramingError`, which no operation reaches. -/
def Obligations.DecodeReadsBigEndian : Prop :=
  (∀ (s : State) (b0 b1 b2 b3 : Byte) (rest : List Byte), s.rxbuf = b0 :: b1 :: b2 :: b3 :: rest →
    ∃ f : Frame, decodeRx s = .ok (f, { s with rxbuf := rest }) ∧
      f.payload.toNat = b0.toNat * 256 + b1.toNat ∧ f.seq.toNat = b2.toNat * 256 + b3.toNat) ∧
  (∀ s : State, s.rxbuf.length < 4 → decodeRx s = .error .framingError) ∧
  (∀ (s : State) (i : Instr), exec i s ≠ .fault .framingError)

/-- `HOSTCMD` words with `CMD` 6..15, a set bit in 27:16, or `ARG ≠ 0` with `CMD ≠ 2` are the only ones
that do not decode, and issuing one is the fault `ReservedCommand` (41_engine_core.md R136). -/
def Obligations.ReservedHostWordsFault : Prop :=
  (∀ w : U32, (∃ e, decodeHostCmd w = .error e) ↔
    6 ≤ w.toNat / 2 ^ 28 ∨ w.toNat / 2 ^ 16 % 2 ^ 12 ≠ 0 ∨
      (w.toNat % 2 ^ 16 ≠ 0 ∧ w.toNat / 2 ^ 28 ≠ 2)) ∧
  (∀ (s : State) (w now : U32) (cfg : Cfg) (rest : List Input), s.inbox = .host w now cfg :: rest →
    (6 ≤ w.toNat / 2 ^ 28 ∨ w.toNat / 2 ^ 16 % 2 ^ 12 ≠ 0 ∨
      (w.toNat % 2 ^ 16 ≠ 0 ∧ w.toNat / 2 ^ 28 ≠ 2)) → step s = .fault .reservedCommand)

/-- The opcode values are pairwise distinct and none can be a checksum (00_scope.md R10). -/
def Obligations.OpcodesMeetTheirConstraints : Prop :=
  Config.opcodes.Nodup ∧ ∀ p ∈ Config.opcodes, p.toInt < 48 ∨ 323 < p.toInt

/-- The codes of registers, conditions, events and host faults (10_state.md R22, R24, R33;
60_exceptions.md R201, R202, R205). -/
def Obligations.CodesAreThoseOfTheTables : Prop :=
  [EngineState.waitingForSignal, .okContinue, .waitingForAsciiSum, .waitingForAck,
    .inAckTimeoutBuffer, .waitingForInfoMessage, .waitingForRepMessage, .waitingForAnt,
    .waitingForMoreAnt, .connectionClosed].map EngineState.code = [0, 1, 2, 3, 4, 5, 6, 7, 8, 9] ∧
  [Phase.notOpen, .hsWaitSoh, .hsVersion, .hsWaitEtx, .opened].map Phase.code = [0, 1, 2, 3, 4] ∧
  [AckCtx.data, .stx, .info].map AckCtx.code = [0, 1, 2] ∧
  [Condition.checksumMismatch, .ackTimeout, .abfTimeout, .refreshTimeout, .attemptsExhausted,
    .handshakeTimeout, .handshakeRejected].map Condition.code = [1, 2, 3, 4, 5, 6, 7] ∧
  [Event.none, .handshakeOk, .handshakeFailed, .connectionClosed].map Event.code = [0, 1, 2, 3] ∧
  [Fault.sendNotReady, .sendReservedPayload, .openWhileActive, .badConfig, .reservedCommand,
    .framingError].map Fault.code = [some 16, some 17, some 18, some 19, some 20, some 21]

/-! ### Checksums -/

/-- `DecimalString` (40_codec.md R103): one `'-'` for a negative value, then the ASCII digits of `|v|`
with no leading zero. -/
def Obligations.DecimalStringIsTheDecimalForm : Prop :=
  ∀ v : I16, ∃ ds : List Nat,
    decimalString v = (if v.toInt < 0 then [45] else []) ++ ds.map (48 + ·) ∧
    (∀ d ∈ ds, d < 10) ∧ ds.foldl (fun a d => 10 * a + d) 0 = v.toInt.natAbs ∧
    ds ≠ [] ∧ (ds.head? = some 0 → ds = [0])

/-- `Checksum` (40_codec.md R104) is the sum of the character codes. That it never wraps, lies in 48..323
and reaches 323 at −29999 alone is what the spec derives there. -/
def Obligations.ChecksumLiesIn48To323 : Prop :=
  (∀ v : I16, (checksum v).toInt = ((decimalString v).sum : Nat) ∧
    48 ≤ (checksum v).toInt ∧ (checksum v).toInt ≤ 323 ∧
    ((checksum v).toInt = 323 ↔ v.toInt = -29999)) ∧
  checksum 0 = 48

/-- A checksum reply to a frame is always a `DATA` frame, while a text checksum can be any value
(30_encoding.md R83, which the spec derives). -/
def Obligations.ChecksumReplyIsNeverAnOpcode : Prop :=
  (∀ v : I16, classify (checksum v) = .data) ∧ (∀ v : I16, ∃ t : List Byte, checksumText t = v)

/-- `ChecksumText` (40_codec.md R105): the unsigned bytes are added, the sum wraps modulo 2^16 and is
read as signed. -/
def Obligations.ChecksumTextWraps : Prop :=
  ∀ t : List Byte, (checksumText t).toInt = Int.bmod ((t.map BitVec.toNat).sum : Nat) (2 ^ 16)

/-! ### Steps and ticks -/

/-- A step runs the instruction that the next host word decodes to, with its side operands latched
(41_engine_core.md R115, R130). The `inbox` is the model's (logs 1, 2). -/
def Obligations.StepRunsTheDecodedOperation : Prop :=
  ∀ (s : State) (w now : U32) (cfg : Cfg) (rest : List Input) (i : Instr),
    s.inbox = .host w now cfg :: rest → decode .hostcmd w = .ok i →
    step s = exec i { s with inbox := rest, now := now, openCfg := cfg }

/-- Between operations the state changes only by `RxPush`, which drops a byte that finds the buffer
full (20_memory.md R53, 41_engine_core.md R110; the `inbox` is the model's, log 2). -/
def Obligations.BetweenOperationsOnlyBytesArrive : Prop :=
  (∀ (s : State) (b : Byte) (rest : List Input), s.inbox = .rxByte b :: rest →
    step s = .next { s with
      inbox := rest
      rxbuf := if s.rxbuf.length < s.params.rxDepth then s.rxbuf ++ [b] else s.rxbuf }) ∧
  (∀ s : State, s.inbox = [] → step s = .next s)

/-- A tick with a whole frame in the buffer runs the frame's row on the state without those four bytes,
whatever the timers say (41_engine_core.md R111, R112). -/
def Obligations.TickRunsTheFrameAtTheHead : Prop :=
  ∀ (s : State) (b0 b1 b2 b3 : Byte) (rest : List Byte),
    s.phase ≠ .notOpen → s.state ≠ .waitingForInfoMessage → s.rxbuf = b0 :: b1 :: b2 :: b3 :: rest →
    exec .tick s = exec (decodeFrame (bytesToWord b0 b1 b2 b3)) { s with rxbuf := rest }

/-- A frame row is the tick that finds the frame as the oldest bytes of the buffer, in every state
(log 11). -/
def Obligations.FrameRowIsTheTickThatMeetsIt : Prop :=
  ∀ (s : State) (i : Instr) (q p : I16), FrameRow i q p →
    exec i s = exec .tick { s with rxbuf := encodeFrame q p ++ s.rxbuf }

/-- Every frame that is parsed is tracked once, before it is dispatched (41_engine_core.md R119). What it
makes the engine create takes the tracked number and advances the counter (R118); otherwise the counter
stays and nothing is emitted but, where a checksum is awaited, the outstanding Signal, unchanged (R117,
R121). -/
def Obligations.ParsedFramesAreTracked : Prop :=
  ∀ (s t : State) (i : Instr) (q p : I16), FrameRow i q p → s.phase ≠ .notOpen →
    s.state ≠ .waitingForInfoMessage → exec i s = .next t →
    (t.seq = trackedSeq q s.seq ∧
      (t.txlog = s.txlog ∨
        (s.state = .waitingForAsciiSum ∧
          t.txlog = s.txlog ++ encodeFrame s.lastSent.seq s.lastSent.payload))) ∨
      (t.seq = trackedSeq q s.seq + 1 ∧
        ∃ r : I16, t.txlog = s.txlog ++ encodeFrame (trackedSeq q s.seq) r)

/-- One to three bytes are left in place by a tick, which completes (41_engine_core.md R111;
70_reset_and_hazards.md R237, which the spec derives). -/
def Obligations.PartialFrameIsLeftInPlace : Prop :=
  ∀ s : State, NoFrame s → ∃ t, exec .tick s = .next t ∧ t.rxbuf = s.rxbuf ∧
    t.lastRecv = s.lastRecv ∧ t.cfg = s.cfg ∧ t.infoBuf = s.infoBuf ∧ t.infoLen = s.infoLen

/-- A tick consumes at most one frame, or reads info text, and emits at most one frame; and so does
every other host operation (20_memory.md R59; 41_engine_core.md R113, which the spec derives). -/
def Obligations.OneFrameInAndOneOutPerOperation : Prop :=
  ∀ (s t : State) (i : Instr), i.format = .hostcmd → exec i s = .next t →
    (t.rxbuf = s.rxbuf ∨ (i = .tick ∧ t.rxbuf = s.rxbuf.drop 4 ∧ 4 ≤ s.rxbuf.length) ∨
      (i = .tick ∧ s.state = .waitingForInfoMessage ∧
        ∃ n, n ≤ s.params.infoMax ∧ t.rxbuf = s.rxbuf.drop n)) ∧
    (t.txlog = s.txlog ∨ ∃ q p : I16, t.txlog = s.txlog ++ encodeFrame q p)

/-- The deadline test (41_engine_core.md R116) compares the difference modulo 2^32, so that an interval
of 0 has always elapsed. -/
def Obligations.ElapsedComparesTheWrappedDifference : Prop :=
  ∀ now t interval : U32, (elapsed now t interval = true ↔ Expired now t interval) ∧
    elapsed now t 0 = true

/-! ### Host operations -/

/-- `OPEN` (42_handshake.md R140): what it writes, and its two faults in order. -/
def Obligations.OpenStartsAHandshake : Prop :=
  ∀ s : State,
    (s.phase = .notOpen → classify s.openCfg.version = .data →
      exec .openSession s = .next { s with
        cfg := s.openCfg, seq := 0, abfCount := 0
        lastSent := { s.lastSent with valid := false }
        lastRecv := { s.lastRecv with valid := false }
        ackCtx := .data, infoLen := 0, state := .waitingForSignal, phase := .hsWaitSoh
        tMark := s.now, result := .nothing }) ∧
    (s.phase ≠ .notOpen → exec .openSession s = .fault .openWhileActive) ∧
    (s.phase = .notOpen → classify s.openCfg.version ≠ .data →
      exec .openSession s = .fault .badConfig)

/-- `SEND` (41_engine_core.md R132, R120): the Signal it emits and records, and its two faults in
order. -/
def Obligations.SendEmitsAnApplicationSignal : Prop :=
  ∀ (s : State) (p : I16),
    (s.phase = .opened → s.state = .okContinue → classify p = .data →
      exec (.send p) s = .next { s with
        lastSent := { valid := true, seq := s.seq, payload := p, expected := checksum p }
        seq := s.seq + 1, state := .waitingForAsciiSum
        txlog := s.txlog ++ encodeFrame s.seq p, tMark := s.now, result := .nothing }) ∧
    (s.phase ≠ .opened ∨ s.state ≠ .okContinue → exec (.send p) s = .fault .sendNotReady) ∧
    (s.phase = .opened → s.state = .okContinue → classify p ≠ .data →
      exec (.send p) s = .fault .sendReservedPayload)

/-- The three reads (41_engine_core.md R133 to R135) complete in every state, return what the rules say
and write nothing else. -/
def Obligations.ReadsReturnAndWriteNothing : Prop :=
  ∀ s : State,
    exec .readLast s = .next { s with
      result := .lastPayload (if s.lastRecv.valid = true then some s.lastRecv.payload else none) } ∧
    exec .isOpen s = .next { s with result := .openFlag (decide (s.phase = .opened)) } ∧
    ∃ w : BitVec 16, exec .readStatus s = .next { s with result := .status w } ∧
      w.toNat = s.abfCount.toNat * 2 ^ 8 + (if s.lastSent.valid then 2 ^ 7 else 0) +
        s.phase.code.toNat * 2 ^ 4 + s.state.code.toNat

/-- Bits 6:0 of the status are 0x41 exactly when `SEND` is ready, and a `SEND` right after such a read
completes (70_reset_and_hazards.md R233, which the spec derives). -/
def Obligations.StatusTellsWhenSendIsReady : Prop :=
  ∀ (s t : State) (w : BitVec 16), exec .readStatus s = .next t → t.result = .status w →
    (w.toNat % 2 ^ 7 = 0x41 ↔ s.phase = .opened ∧ s.state = .okContinue) ∧
    (w.toNat % 2 ^ 7 = 0x41 → ∀ p : I16, classify p = .data → ∃ u, exec (.send p) t = .next u)

/-! ### Frames by state -/

/-- `OK_CONTINUE` (43_steady_state.md R150, R151; 41_engine_core.md R122, R123), for all eight rows. -/
def Obligations.OkContinueFrames : Prop :=
  ∀ (s : State) (i : Instr) (q p : I16), FrameRow i q p → s.phase ≠ .notOpen →
    s.state = .okContinue →
    (p = 0x0016 → exec i s = .next (antNoted q s)) ∧
    (p = 0x0015 → exec i s = .next (abfAnswered q s)) ∧
    (p ≠ 0x0016 → p ≠ 0x0015 → exec i s = .next (dataAnswered q p s))

/-- The `SOH` wait (42_handshake.md R141): `SOH` sends the version, any other frame is discarded. -/
def Obligations.SohWaitFrames : Prop :=
  ∀ (s : State) (i : Instr) (q p : I16), FrameRow i q p → s.phase = .hsWaitSoh →
    s.state = .waitingForSignal →
    (p = 0x0001 → exec i s = .next (versionSent q s)) ∧
    (p ≠ 0x0001 → exec i s = .next (tracked q s))

/-- The `ETX` wait (42_handshake.md R144): the first frame decides. -/
def Obligations.EtxWaitFrames : Prop :=
  ∀ (s : State) (i : Instr) (q p : I16), FrameRow i q p → s.phase = .hsWaitEtx →
    s.state = .waitingForSignal →
    (p = 0x0003 → exec i s = .next (sessionOpened q s)) ∧
    (p ≠ 0x0003 → exec i s = .next (closedAfter [.handshakeRejected] (tracked q s)))

/-- `WAITING_FOR_ASCII_SUM` (43_steady_state.md R153): a match is acknowledged, anything else resends
the Signal unchanged (41_engine_core.md R121). -/
def Obligations.AsciiSumFrames : Prop :=
  ∀ (s : State) (i : Instr) (q p : I16), FrameRow i q p → s.phase ≠ .notOpen →
    s.state = .waitingForAsciiSum →
    (p = s.lastSent.expected → exec i s = .next (replyConfirmed q s)) ∧
    (p ≠ s.lastSent.expected →
      exec i s = .next (signalResent .checksumMismatch (tracked q s)))

/-- `WAITING_FOR_ACK` (43_steady_state.md R155; 41_engine_core.md R122, R123, R125). -/
def Obligations.AckWaitFrames : Prop :=
  ∀ (s : State) (i : Instr) (q p : I16), FrameRow i q p → s.phase ≠ .notOpen →
    s.state = .waitingForAck →
    (p = 0x0006 → exec i s = .next (ackTaken q s)) ∧
    (p = 0x0015 → exec i s = .next (abfAnswered q s)) ∧
    (p ≠ 0x0006 → p ≠ 0x0015 → exec i s = .next (dataAnswered q p s))

/-- The hold (43_steady_state.md R157, R158): `ABF` is answered, the duplicate reply is absorbed, and any
other frame does what it does once the hold is over. -/
def Obligations.HoldFrames : Prop :=
  ∀ (s : State) (i : Instr) (q p : I16), FrameRow i q p → s.phase ≠ .notOpen →
    s.state = .inAckTimeoutBuffer →
    (p = 0x0015 → exec i s = .next (abfAnswered q s)) ∧
    (p ≠ 0x0015 → p = s.lastSent.expected →
      exec i s = .next { tracked q s with tMark := s.now }) ∧
    (p ≠ 0x0015 → p ≠ s.lastSent.expected →
      exec i s = exec i (holdOver s) ∧ ∃ t, exec i s = .next t)

/-- The three recovery states (44_recovery.md R172, R173, R176, R177). -/
def Obligations.RecoveryFrames : Prop :=
  ∀ (s : State) (i : Instr) (q p : I16), FrameRow i q p → s.phase ≠ .notOpen →
    (s.state = .waitingForAnt ∨ s.state = .waitingForMoreAnt ∨ s.state = .waitingForRepMessage) →
    (p = 0x0016 → exec i s = .next (antNoted q s)) ∧
    (p = 0x0015 → exec i s = .next (abfAnswered q s)) ∧
    (p ≠ 0x0016 → p ≠ 0x0015 → s.lastSent.valid = true →
      (p = s.lastSent.expected → exec i s = .next (replyConfirmed q s)) ∧
      (p ≠ s.lastSent.expected → exec i s = .next (tracked q s))) ∧
    (p ≠ 0x0016 → p ≠ 0x0015 → s.lastSent.valid = false →
      (p = 0x0006 → exec i s = .next (ackTaken q s)) ∧
      (p ≠ 0x0006 → exec i s = .next (dataAnswered q p s)))

/-- A frame at a pair that 41_engine_core.md R126 gives no rule stops by name. The stop is the model's
choice (log 10); the invariant rules the pairs out. -/
def Obligations.FrameWithoutARuleStops : Prop :=
  ∀ (s : State) (i : Instr) (q p : I16), FrameRow i q p →
    (s.state = .waitingForSignal ∧ (s.phase = .hsVersion ∨ s.phase = .opened)) ∨
      (s.state = .connectionClosed ∧ s.phase ≠ .notOpen) →
    exec i s = .fault .noDispatchRule

/-! ### Timers -/

/-- States with no timer, and timed states before their deadline: a tick without a frame does nothing
(42_handshake.md R142, 43_steady_state.md R152, R161, 44_recovery.md R177, 41_engine_core.md R127). -/
def Obligations.TickBeforeAnyDeadlineDoesNothing : Prop :=
  (∀ s : State, NoFrame s →
    (s.state = .okContinue ∨ s.state = .waitingForRepMessage ∨
      (s.state = .waitingForSignal ∧ s.phase = .hsWaitSoh) ∨
      ∃ interval, TimedBy s interval ∧ ¬ Expired s.now s.tMark interval) →
    exec .tick s = .next (ticked s)) ∧
  (∀ s : State, s.phase ≠ .notOpen → s.state = .waitingForInfoMessage → s.rxbuf = [] →
    exec .tick s = .next (ticked s))

/-- The waits that end in an `ABF` or the close: `TIMEOUT` (43_steady_state.md R154), `ACK_TIMEOUT`
(R156) and `ABF_INTERVAL` (44_recovery.md R174), each by `SendAbf` (44_recovery.md R170). That the trace
of a close lists the timeout before `AttemptsExhausted` is the model's choice (log 5). -/
def Obligations.ExpiredWaitSendsAbfOrCloses : Prop :=
  ∀ s : State, NoFrame s →
    (s.state = .waitingForAsciiSum → Expired s.now s.tMark s.cfg.timeout →
      exec .tick s = .next (abfAttempt .ackTimeout s)) ∧
    (s.state = .waitingForAck → Expired s.now s.tMark s.cfg.ackTimeout →
      exec .tick s = .next (abfAttempt .ackTimeout s)) ∧
    (s.state = .waitingForAnt → Expired s.now s.tMark s.cfg.abfInterval →
      exec .tick s = .next (abfAttempt .abfTimeout s))

/-- The other waits: the `ETX` wait (42_handshake.md R145), the hold (43_steady_state.md R159) and the
wait for more `ANT` (44_recovery.md R178). -/
def Obligations.OtherExpiredWaits : Prop :=
  ∀ s : State, NoFrame s →
    (s.state = .waitingForSignal → s.phase = .hsWaitEtx → Expired s.now s.tMark s.cfg.timeout →
      exec .tick s = .next (closedAfter [.handshakeTimeout] s)) ∧
    (s.state = .inAckTimeoutBuffer → Expired s.now s.tMark s.cfg.ackTimeout →
      exec .tick s = .next (holdOver (ticked s))) ∧
    (s.state = .waitingForMoreAnt → Expired s.now s.tMark s.cfg.refreshInterval →
      (s.lastSent.valid = true →
        exec .tick s = .next (signalResent .refreshTimeout (ticked s))) ∧
      (s.lastSent.valid = false → exec .tick s = .next { ticked s with
        conds := [.refreshTimeout], state := .waitingForRepMessage, tMark := s.now }))

/-! ### The info message -/

/-- Text under `NUL_TERMINATED` (43_steady_state.md R160): it ends with the first 0x00, or at `INFO_MAX`
bytes, or goes on in a later tick. -/
def Obligations.NulTerminatedText : Prop :=
  ∀ (s : State) (pre : List Byte), s.phase ≠ .notOpen → s.state = .waitingForInfoMessage →
    s.params.infoFraming = .nulTerminated → 0 ∉ pre →
    (∀ rest, s.rxbuf = pre ++ 0 :: rest → s.infoLen + pre.length < s.params.infoMax →
      exec .tick s = .next (textAnswered rest (Memory.writeRun s.infoBuf s.infoLen (pre ++ [0]))
        (s.infoLen + pre.length + 1) s)) ∧
    (∀ rest, s.rxbuf = pre ++ rest → pre ≠ [] → s.infoLen + pre.length = s.params.infoMax →
      exec .tick s = .next (textAnswered rest (Memory.writeRun s.infoBuf s.infoLen pre)
        s.params.infoMax s)) ∧
    (s.rxbuf = pre → s.infoLen + pre.length < s.params.infoMax →
      exec .tick s = .next { ticked s with
        rxbuf := [], infoBuf := Memory.writeRun s.infoBuf s.infoLen pre
        infoLen := s.infoLen + pre.length })

/-- Text under `AVAILABLE` (43_steady_state.md R160): what is in the buffer, up to `INFO_MAX` bytes. -/
def Obligations.AvailableText : Prop :=
  ∀ s : State, s.phase ≠ .notOpen → s.state = .waitingForInfoMessage →
    s.params.infoFraming = .available → s.rxbuf ≠ [] →
    exec .tick s = .next (textAnswered (s.rxbuf.drop s.params.infoMax)
      (Memory.writeRun s.infoBuf 0 (s.rxbuf.take s.params.infoMax))
      (min s.rxbuf.length s.params.infoMax) s)

/-- `INFO_BUF` is a store (10_state.md R34): a read gives the last write, other bytes keep their values,
the form is kept, and a run written from index 0 is the text read back. -/
def Obligations.InfoBufferReadsBack : Prop :=
  ∀ (m : Memory), Memory.wf m = true →
    (∀ (n : Nat) (v : Byte) (k : Nat), Memory.wf (Memory.write m n v) = true ∧
      Memory.read (Memory.write m n v) k = if k = n then v else Memory.read m k) ∧
    (∀ bs : List Byte, Memory.text (Memory.writeRun m 0 bs) bs.length = bs)

/-! ### Reset -/

/-- Every value that 10_state.md R38 gives for power-on. -/
def Obligations.ResetValues : Prop :=
  State.reset.state = .connectionClosed ∧ State.reset.phase = .notOpen ∧ State.reset.seq = 0 ∧
  State.reset.abfCount = 0 ∧ State.reset.tMark = 0 ∧ State.reset.lastSent.valid = false ∧
  State.reset.lastRecv.valid = false ∧ State.reset.ackCtx = .data ∧ State.reset.infoLen = 0 ∧
  State.reset.rxbuf = [] ∧ State.reset.txlog = []

/-- After power-on the engine is inert (70_reset_and_hazards.md R222, which the spec derives). -/
def Obligations.InertAfterReset : Prop :=
  exec .tick State.reset = .next (ticked State.reset) ∧
  (∀ p : I16, exec (.send p) State.reset = .fault .sendNotReady) ∧
  exec .readLast State.reset = .next { State.reset with result := .lastPayload none } ∧
  exec .isOpen State.reset = .next { State.reset with result := .openFlag false } ∧
  exec .readStatus State.reset = .next { State.reset with result := .status 0x0009 }

/-! ### The whole machine -/

/-- The invariant holds at reset. The clauses about `params` and about the attempt counter rest on the
reset values of logs 3 and 6. -/
def Obligations.ResetMeetsTheInvariant : Prop := Inv State.reset

/-- The invariant (10_state.md R25, R29, R31, R34, R35, R37; 41_engine_core.md R126, of which the spec
derives most) is kept by every step. -/
def Obligations.StepKeepsTheInvariant : Prop :=
  ∀ s t : State, Inv s → step s = .next t → Inv t

/-- Where the host keeps its duty an operation completes, and where it does not the operation is one of
the host faults (60_exceptions.md R204, R205; R219, which the spec derives). That a frame row is an
operation of its own is the model's choice (log 11). -/
def Obligations.OnlyTheHostCanFault : Prop :=
  ∀ (s : State) (i : Instr), Inv s →
    (HostDuty i s → ∃ t, exec i s = .next t) ∧
    (¬ HostDuty i s → ∃ f, exec i s = .fault f ∧
      f ∈ [.sendNotReady, .sendReservedPayload, .openWhileActive, .badConfig])

/-- A `TICK` always completes and returns an event (60_exceptions.md R200, R202). -/
def Obligations.TickAlwaysReturnsAnEvent : Prop :=
  ∀ s : State, Inv s → ∃ t e, exec .tick s = .next t ∧ t.result = .event e

/-- A closed engine is inert, and only `OPEN` leaves it (44_recovery.md R179, which the spec derives). -/
def Obligations.ClosedEngineIsInert : Prop :=
  ∀ s : State, s.phase = .notOpen →
    exec .tick s = .next (ticked s) ∧
    (∀ p : I16, exec (.send p) s = .fault .sendNotReady) ∧
    (∀ (i : Instr) (t : State), exec i s = .next t → i ≠ .openSession →
      t.phase = .notOpen ∧ t.state = s.state ∧ t.txlog = s.txlog)

/-- The engine closes only by `EnterClosed`, which returns the event of 60_exceptions.md R202, emits
nothing and keeps `LAST_RECV` and the attempt counter, but for a hold that ends first
(44_recovery.md R175, 43_steady_state.md R158). -/
def Obligations.ClosingReturnsItsEvent : Prop :=
  ∀ (s t : State) (i : Instr), Inv s → exec i s = .next t → s.phase ≠ .notOpen →
    t.phase = .notOpen →
    t.state = .connectionClosed ∧ t.txlog = s.txlog ∧ t.lastRecv = s.lastRecv ∧
    (t.abfCount = s.abfCount ∨ s.state = .inAckTimeoutBuffer ∧ t.abfCount = 0) ∧
    t.result = .event (if s.phase = .opened then .connectionClosed else .handshakeFailed)

/-- A session opens only by an `ETX` frame, and the tick that opens it returns `HANDSHAKE_OK`
(42_handshake.md R144, R146). -/
def Obligations.OpeningReturnsHandshakeOk : Prop :=
  ∀ (s t : State) (i : Instr), i.WellFormed → exec i s = .next t → s.phase ≠ .opened →
    t.phase = .opened →
    t.state = .okContinue ∧ t.result = .event .handshakeOk ∧ t.txlog = s.txlog ∧
    (i = .tick ∧ s.rxbuf.take 2 = [0x00, 0x03] ∨ ∃ q, i = .etx q)

/-- The phase moves only along the handshake, or to closed (10_state.md R24; 42_handshake.md R140 to
R146; 44_recovery.md R175). -/
def Obligations.PhaseFollowsTheHandshake : Prop :=
  ∀ (s t : State) (i : Instr), Inv s → exec i s = .next t →
    t.phase = s.phase ∨
    (i = .openSession ∧ s.phase = .notOpen ∧ t.phase = .hsWaitSoh) ∨
    (s.phase = .hsWaitSoh ∧ t.phase = .hsVersion) ∨
    (s.phase = .hsVersion ∧ (t.phase = .hsWaitEtx ∨ t.phase = .opened ∨ t.phase = .notOpen)) ∨
    (s.phase = .hsWaitEtx ∧ (t.phase = .opened ∨ t.phase = .notOpen)) ∨
    (s.phase = .opened ∧ t.phase = .notOpen)

/-- `CFG` is written only by `OPEN`, and the parameters by nothing (10_state.md R27, 20_memory.md R65;
log 3). -/
def Obligations.OnlyOpenWritesCfg : Prop :=
  ∀ (s t : State) (i : Instr), exec i s = .next t →
    t.params = s.params ∧ (i ≠ .openSession → t.cfg = s.cfg) ∧ (i = .openSession → t.cfg = s.openCfg)

/-- `LAST_RECV` is replaced only by a frame taken as application data, which is answered with its
checksum (10_state.md R32, 41_engine_core.md R123). -/
def Obligations.OnlyDataReplacesLastReceived : Prop :=
  ∀ (s t : State) (i : Instr), exec i s = .next t → i ≠ .openSession → t.lastRecv ≠ s.lastRecv →
    t.lastRecv.valid = true ∧ t.state = .waitingForAck ∧
    ∃ q : I16, t.txlog = s.txlog ++ encodeFrame q (checksum t.lastRecv.payload)

/-- Stop and wait (10_state.md R37, which the spec derives): while an application Signal is outstanding no other can be sent. -/
def Obligations.NoSecondSignalInFlight : Prop :=
  ∀ (s : State) (p : I16), Inv s → s.lastSent.valid = true → exec (.send p) s = .fault .sendNotReady

/-- `ACK_WAIT` has no effect (10_state.md R27, 41_engine_core.md R127): replacing it before an operation
is the same as replacing it after. -/
def Obligations.AckWaitHasNoEffect : Prop :=
  ∀ (s : State) (i : Instr) (v : U32),
    (∀ t, exec i s = .next t → exec i (withAckWait v s) = .next (withAckWait v t)) ∧
    (∀ f, exec i s = .fault f → exec i (withAckWait v s) = .fault f)

/-- Sequence numbers are used for nothing but numbering (41_engine_core.md R119): two states that differ
in them alone go on in step, and transmit frames of the same payloads. -/
def Obligations.SequenceNumbersDecideNothing : Prop :=
  ∀ (s t : State) (i : Instr), SameButSeq s t →
    (∀ s', exec i s = .next s' → ∃ t', exec i t = .next t' ∧ SameButSeq s' t') ∧
    (∀ f, exec i s = .fault f → exec i t = .fault f)

/-- A silent peer (44_recovery.md R171, R180, which the spec derives): after an application Signal, with a tick at each deadline,
the engine sends `MAX_ABF_ATTEMPTS` `ABF` frames and at the next deadline closes. -/
def Obligations.SilentPeerClosesAfterTheBound : Prop :=
  ∀ s : State, s.phase ≠ .notOpen → s.state = .waitingForAsciiSum → s.rxbuf.length < 4 →
    s.abfCount = 0 →
    let clock := clockFrom (s.tMark + s.cfg.timeout) s.cfg.abfInterval
    let n := s.cfg.maxAbfAttempts.toNat
    (∀ k, 0 < k → k ≤ n → ∃ t, runTicks (clock k) s = .next t ∧ t.state = .waitingForAnt ∧
      t.phase = s.phase ∧ t.abfCount.toNat = k ∧ t.txlog = s.txlog ++ abfFrames s.seq k) ∧
    ∃ t, runTicks (clock (n + 1)) s = .next t ∧ t.state = .connectionClosed ∧ t.phase = .notOpen ∧
      t.txlog = s.txlog ++ abfFrames s.seq n ∧ t.lastSent = s.lastSent ∧
      t.result = .event (if s.phase = .opened then .connectionClosed else .handshakeFailed)
end

