-- ==== Sys2Proof/Laws/Decode.lean ====
section
/-! SUPPORT. Small laws of the decoder and the encoder: fields of a frame word, the classes, and what a
host word decodes to. -/

namespace Sys2Proof

@[simp] theorem wordPayload_frameWord (p q : I16) : wordPayload (frameWord p q) = p := by
  apply BitVec.eq_of_toNat_eq
  have hp := p.isLt
  have hq := q.isLt
  simp only [wordPayload, frameWord, BitVec.extractLsb'_toNat, BitVec.toNat_append,
    Nat.shiftLeft_eq, Nat.shiftRight_eq_div_pow]
  rw [← Nat.mul_comm, ← Nat.two_pow_add_eq_or_of_lt hq]
  omega

@[simp] theorem wordSeq_frameWord (p q : I16) : wordSeq (frameWord p q) = q := by
  apply BitVec.eq_of_toNat_eq
  have hp := p.isLt
  have hq := q.isLt
  simp only [wordSeq, frameWord, BitVec.extractLsb'_toNat, BitVec.toNat_append,
    Nat.shiftLeft_eq, Nat.shiftRight_eq_div_pow]
  rw [← Nat.mul_comm, ← Nat.two_pow_add_eq_or_of_lt hq]
  omega

/-- A frame word decodes to the instruction of its payload and sequence number. -/
@[simp] theorem decodeFrame_frameWord (p q : I16) :
    decodeFrame (frameWord p q) = frameInstr p q := by
  simp [decodeFrame]

/-- The class of a payload, and what each class says of it. -/
theorem classify_eq_data_iff (p : I16) : classify p = .data ↔ p ∉ Config.opcodes := by
  simp only [classify, Config.opcodes, List.mem_cons, List.not_mem_nil, or_false]
  repeat' split
  all_goals simp_all

/-- The check of well-formedness on a `DATA` term is that its class is `DATA`. -/
theorem wellFormed_data_iff (p q : I16) : (Instr.data p q).WellFormed ↔ classify p = .data := by
  rw [classify_eq_data_iff]
  simp [Instr.WellFormed, Instr.wellFormed]

@[simp] theorem classify_soh : classify 1#16 = .soh := by decide
@[simp] theorem classify_stx : classify 2#16 = .stx := by decide
@[simp] theorem classify_etx : classify 3#16 = .etx := by decide
@[simp] theorem classify_eot : classify 4#16 = .eot := by decide
@[simp] theorem classify_ack : classify 6#16 = .ack := by decide
@[simp] theorem classify_abf : classify 21#16 = .abf := by decide
@[simp] theorem classify_ant : classify 22#16 = .ant := by decide

/-- What each class says of the payload, in one statement. -/
theorem classify_cases (p : I16) :
    (p = 0x0001 ∧ classify p = .soh) ∨ (p = 0x0002 ∧ classify p = .stx) ∨
    (p = 0x0003 ∧ classify p = .etx) ∨ (p = 0x0004 ∧ classify p = .eot) ∨
    (p = 0x0006 ∧ classify p = .ack) ∨ (p = 0x0015 ∧ classify p = .abf) ∨
    (p = 0x0016 ∧ classify p = .ant) ∨ (p ∉ Config.opcodes ∧ classify p = .data) := by
  by_cases h : p ∈ Config.opcodes
  · simp only [Config.opcodes, List.mem_cons, List.not_mem_nil, or_false] at h
    rcases h with h | h | h | h | h | h | h <;> subst h <;> decide
  · simp [h, (classify_eq_data_iff p).2 h]

theorem hostWord_fields (c : BitVec 4) (a : I16) :
    (hostWord c a).extractLsb' 16 12 = 0 ∧ (hostWord c a).extractLsb' 0 16 = a ∧
      (hostWord c a).extractLsb' 28 4 = c := by
  have hc := c.isLt
  have ha := a.isLt
  have h : (hostWord c a).toNat = c.toNat * 2 ^ 28 + a.toNat := by
    simp only [hostWord, BitVec.toNat_append, Nat.shiftLeft_eq]
    rw [← Nat.mul_comm (2 ^ 16), ← Nat.two_pow_add_eq_or_of_lt ha]
    simp
    omega
  refine ⟨?_, ?_, ?_⟩ <;> apply BitVec.eq_of_toNat_eq <;>
    simp only [BitVec.extractLsb'_toNat, Nat.shiftRight_eq_div_pow, h] <;> simp <;> omega

/-- A host word decodes by its two fields. -/
theorem decodeHostCmd_hostWord (c : BitVec 4) (a : I16) :
    decodeHostCmd (hostWord c a) =
      match c.toNat with
      | 0 => withoutArg a .tick
      | 1 => withoutArg a .openSession
      | 2 => .ok (.send a)
      | 3 => withoutArg a .readLast
      | 4 => withoutArg a .isOpen
      | 5 => withoutArg a .readStatus
      | _ => .error .reservedCmd := by
  obtain ⟨h1, h2, h3⟩ := hostWord_fields c a
  simp only [decodeHostCmd, h1, h2, h3]
  rfl

end Sys2Proof
end

