-- ==== Sys2Proof/Laws/Memory.lean ====
section
/-! SUPPORT. The laws of `INFO_BUF` as an indexed store: every operation keeps the one form, a read
gives the last write, and other bytes keep their values. -/

namespace Sys2Proof.Machine

open Sys2Proof

/-- Every index of the store is at least `n`. -/
def Memory.From (n : Nat) (m : Memory) : Prop := ∀ c ∈ m, n ≤ c.1

theorem Memory.wf_cons_iff (c : Host.Cell) (m : Memory) :
    Memory.wf (c :: m) = true ↔
      c.2 ≠ Memory.unlisted ∧ Memory.From (c.1 + 1) m ∧ Memory.wf m = true := by
  induction m generalizing c with
  | nil => simp [Memory.wf, Memory.From]
  | cons d m ih =>
    simp only [Memory.wf, Bool.and_eq_true, bne_iff_ne, ne_eq, decide_eq_true_eq, Memory.From,
      List.mem_cons, forall_eq_or_imp]
    constructor
    · rintro ⟨⟨h1, h2⟩, h3⟩
      have h4 := ((ih d).1 h3).2.1
      exact ⟨h1, ⟨h2, fun e he => le_trans (by omega) (h4 e he)⟩, h3⟩
    · rintro ⟨h1, ⟨h2, _⟩, h3⟩
      exact ⟨⟨h1, h2⟩, h3⟩

theorem Memory.wf_nil : Memory.wf [] = true := rfl

theorem Memory.wf_cell {n : Nat} {m : Memory} (v : Byte) (hf : Memory.From (n + 1) m)
    (hw : Memory.wf m = true) : Memory.wf (Memory.cell n v m) = true := by
  unfold Memory.cell
  split
  · exact hw
  · exact (Memory.wf_cons_iff _ _).2 ⟨by assumption, hf, hw⟩

theorem Memory.mem_cell {n : Nat} {v : Byte} {m : Memory} {c : Host.Cell}
    (h : c ∈ Memory.cell n v m) : c.1 = n ∨ c ∈ m := by
  unfold Memory.cell at h
  split at h
  · exact .inr h
  · rcases List.mem_cons.1 h with rfl | h
    · exact .inl rfl
    · exact .inr h

/-- A write adds no index but its own. -/
theorem Memory.mem_write {m : Memory} {n : Nat} {v : Byte} {c : Host.Cell}
    (h : c ∈ Memory.write m n v) : c.1 = n ∨ c ∈ m := by
  induction m with
  | nil => exact Memory.mem_cell h
  | cons d m ih =>
    unfold Memory.write at h
    split at h
    · exact Memory.mem_cell h
    · split at h
      · rcases Memory.mem_cell h with h | h
        · exact .inl h
        · exact .inr (List.mem_cons_of_mem _ h)
      · rcases List.mem_cons.1 h with rfl | h
        · exact .inr List.mem_cons_self
        · rcases ih h with h | h
          · exact .inl h
          · exact .inr (List.mem_cons_of_mem _ h)

/-- A write keeps the one form. -/
theorem Memory.wf_write (m : Memory) (n : Nat) (v : Byte) (h : Memory.wf m = true) :
    Memory.wf (Memory.write m n v) = true := by
  induction m with
  | nil => exact Memory.wf_cell v (fun _ hc => by cases hc) rfl
  | cons c m ih =>
    obtain ⟨h1, h2, h3⟩ := (Memory.wf_cons_iff _ _).1 h
    unfold Memory.write
    split
    · refine Memory.wf_cell v (fun d hd => ?_) h
      rcases List.mem_cons.1 hd with rfl | hd
      · omega
      · have := h2 d hd; omega
    · split
      · subst n
        exact Memory.wf_cell v h2 h3
      · refine (Memory.wf_cons_iff _ _).2 ⟨h1, fun d hd => ?_, ih h3⟩
        rcases Memory.mem_write hd with hd | hd
        · omega
        · exact h2 d hd

/-- A run of writes keeps the one form. -/
theorem Memory.wf_writeRun (m : Memory) (n : Nat) (bs : List Byte) (h : Memory.wf m = true) :
    Memory.wf (Memory.writeRun m n bs) = true := by
  induction bs generalizing m n with
  | nil => exact h
  | cons b bs ih => exact ih _ _ (Memory.wf_write m n b h)

/-- A read below every index finds an unlisted byte. -/
theorem Memory.read_from {m : Memory} {n k : Nat} (h : Memory.From n m) (hk : k < n) :
    Memory.read m k = Memory.unlisted := by
  induction m with
  | nil => rfl
  | cons c m ih =>
    have hc := h c List.mem_cons_self
    have : c.1 ≠ k := by omega
    simp only [Memory.read, this, if_false]
    exact ih (fun d hd => h d (List.mem_cons_of_mem _ hd))

theorem Memory.read_cell {m : Memory} {n : Nat} (v : Byte) (k : Nat)
    (h : Memory.From (n + 1) m) :
    Memory.read (Memory.cell n v m) k = if k = n then v else Memory.read m k := by
  unfold Memory.cell
  split
  · next hv =>
    split
    · next hk => rw [hk, hv]; exact Memory.read_from h (Nat.lt_succ_self n)
    · rfl
  · simp only [Memory.read, eq_comm (a := n)]

/-- A read gives the last write to its index, and every other byte keeps its value. -/
theorem Memory.read_write (m : Memory) (n : Nat) (v : Byte) (k : Nat) (h : Memory.wf m = true) :
    Memory.read (Memory.write m n v) k = if k = n then v else Memory.read m k := by
  induction m with
  | nil => exact Memory.read_cell v k (fun _ hc => by cases hc)
  | cons c m ih =>
    obtain ⟨_, h2, h3⟩ := (Memory.wf_cons_iff _ _).1 h
    unfold Memory.write
    split
    · refine Memory.read_cell v k (fun d hd => ?_)
      rcases List.mem_cons.1 hd with rfl | hd
      · omega
      · have := h2 d hd; omega
    · split
      · subst n
        rw [Memory.read_cell v k h2]
        by_cases hk : k = c.1
        · simp [hk]
        · simp [hk, Memory.read, Ne.symm hk]
      · next h4 h5 =>
        simp only [Memory.read, ih h3]
        by_cases hk : c.1 = k
        · simp [hk, show k ≠ n by omega]
        · simp [hk]

/-- A write below a bound keeps every index below it. -/
theorem Memory.lt_write {m : Memory} {n b : Nat} {v : Byte} (h : ∀ c ∈ m, c.1 < b) (hn : n < b) :
    ∀ c ∈ Memory.write m n v, c.1 < b := by
  intro c hc
  rcases Memory.mem_write hc with hc | hc
  · omega
  · exact h c hc

/-- A run of writes below a bound keeps every index below it. -/
theorem Memory.lt_writeRun {m : Memory} {n b : Nat} {bs : List Byte} (h : ∀ c ∈ m, c.1 < b)
    (hn : n + bs.length ≤ b) : ∀ c ∈ Memory.writeRun m n bs, c.1 < b := by
  induction bs generalizing m n with
  | nil => exact h
  | cons x bs ih =>
    simp only [List.length_cons] at hn
    exact ih (Memory.lt_write h (by omega)) (by omega)

theorem Memory.writeRun_append (m : Memory) (n : Nat) (as bs : List Byte) :
    Memory.writeRun m n (as ++ bs) = Memory.writeRun (Memory.writeRun m n as) (n + as.length) bs := by
  induction as generalizing m n with
  | nil => rfl
  | cons a as ih =>
    simp only [List.cons_append, Memory.writeRun, List.length_cons, ih]
    rw [Nat.add_assoc, Nat.add_comm 1]

/-- The contents at reset have the one form. -/
theorem Memory.wf_reset : Memory.wf State.reset.infoBuf = true := rfl

end Sys2Proof.Machine
end

