-- ==== Sys2Proof/Laws/State.lean ====
section
/-! SUPPORT. One lemma per field of State per named update: no later proof unfolds an update. -/

namespace Sys2Proof.Machine

open Sys2Proof

variable (s : State)

/-! ### `signal` -/

@[simp] theorem signal_state (e : Event) : (signal e s).state = s.state := rfl
@[simp] theorem signal_phase (e : Event) : (signal e s).phase = s.phase := rfl
@[simp] theorem signal_seq (e : Event) : (signal e s).seq = s.seq := rfl
@[simp] theorem signal_abfCount (e : Event) : (signal e s).abfCount = s.abfCount := rfl
@[simp] theorem signal_tMark (e : Event) : (signal e s).tMark = s.tMark := rfl
@[simp] theorem signal_cfg (e : Event) : (signal e s).cfg = s.cfg := rfl
@[simp] theorem signal_lastSent (e : Event) : (signal e s).lastSent = s.lastSent := rfl
@[simp] theorem signal_lastRecv (e : Event) : (signal e s).lastRecv = s.lastRecv := rfl
@[simp] theorem signal_ackCtx (e : Event) : (signal e s).ackCtx = s.ackCtx := rfl
@[simp] theorem signal_infoBuf (e : Event) : (signal e s).infoBuf = s.infoBuf := rfl
@[simp] theorem signal_infoLen (e : Event) : (signal e s).infoLen = s.infoLen := rfl
@[simp] theorem signal_rxbuf (e : Event) : (signal e s).rxbuf = s.rxbuf := rfl
@[simp] theorem signal_txlog (e : Event) : (signal e s).txlog = s.txlog := rfl
@[simp] theorem signal_params (e : Event) : (signal e s).params = s.params := rfl
@[simp] theorem signal_now (e : Event) : (signal e s).now = s.now := rfl
@[simp] theorem signal_openCfg (e : Event) : (signal e s).openCfg = s.openCfg := rfl
@[simp] theorem signal_result (e : Event) : (signal e s).result = .event e := rfl
@[simp] theorem signal_conds (e : Event) : (signal e s).conds = s.conds := rfl
@[simp] theorem signal_inbox (e : Event) : (signal e s).inbox = s.inbox := rfl

/-! ### `meet` -/

@[simp] theorem meet_state (c : Condition) : (meet c s).state = s.state := rfl
@[simp] theorem meet_phase (c : Condition) : (meet c s).phase = s.phase := rfl
@[simp] theorem meet_seq (c : Condition) : (meet c s).seq = s.seq := rfl
@[simp] theorem meet_abfCount (c : Condition) : (meet c s).abfCount = s.abfCount := rfl
@[simp] theorem meet_tMark (c : Condition) : (meet c s).tMark = s.tMark := rfl
@[simp] theorem meet_cfg (c : Condition) : (meet c s).cfg = s.cfg := rfl
@[simp] theorem meet_lastSent (c : Condition) : (meet c s).lastSent = s.lastSent := rfl
@[simp] theorem meet_lastRecv (c : Condition) : (meet c s).lastRecv = s.lastRecv := rfl
@[simp] theorem meet_ackCtx (c : Condition) : (meet c s).ackCtx = s.ackCtx := rfl
@[simp] theorem meet_infoBuf (c : Condition) : (meet c s).infoBuf = s.infoBuf := rfl
@[simp] theorem meet_infoLen (c : Condition) : (meet c s).infoLen = s.infoLen := rfl
@[simp] theorem meet_rxbuf (c : Condition) : (meet c s).rxbuf = s.rxbuf := rfl
@[simp] theorem meet_txlog (c : Condition) : (meet c s).txlog = s.txlog := rfl
@[simp] theorem meet_params (c : Condition) : (meet c s).params = s.params := rfl
@[simp] theorem meet_now (c : Condition) : (meet c s).now = s.now := rfl
@[simp] theorem meet_openCfg (c : Condition) : (meet c s).openCfg = s.openCfg := rfl
@[simp] theorem meet_result (c : Condition) : (meet c s).result = s.result := rfl
@[simp] theorem meet_conds (c : Condition) : (meet c s).conds = s.conds ++ [c] := rfl
@[simp] theorem meet_inbox (c : Condition) : (meet c s).inbox = s.inbox := rfl

/-! ### `beginTick` -/

@[simp] theorem beginTick_state : (beginTick s).state = s.state := rfl
@[simp] theorem beginTick_phase : (beginTick s).phase = s.phase := rfl
@[simp] theorem beginTick_seq : (beginTick s).seq = s.seq := rfl
@[simp] theorem beginTick_abfCount : (beginTick s).abfCount = s.abfCount := rfl
@[simp] theorem beginTick_tMark : (beginTick s).tMark = s.tMark := rfl
@[simp] theorem beginTick_cfg : (beginTick s).cfg = s.cfg := rfl
@[simp] theorem beginTick_lastSent : (beginTick s).lastSent = s.lastSent := rfl
@[simp] theorem beginTick_lastRecv : (beginTick s).lastRecv = s.lastRecv := rfl
@[simp] theorem beginTick_ackCtx : (beginTick s).ackCtx = s.ackCtx := rfl
@[simp] theorem beginTick_infoBuf : (beginTick s).infoBuf = s.infoBuf := rfl
@[simp] theorem beginTick_infoLen : (beginTick s).infoLen = s.infoLen := rfl
@[simp] theorem beginTick_rxbuf : (beginTick s).rxbuf = s.rxbuf := rfl
@[simp] theorem beginTick_txlog : (beginTick s).txlog = s.txlog := rfl
@[simp] theorem beginTick_params : (beginTick s).params = s.params := rfl
@[simp] theorem beginTick_now : (beginTick s).now = s.now := rfl
@[simp] theorem beginTick_openCfg : (beginTick s).openCfg = s.openCfg := rfl
@[simp] theorem beginTick_result : (beginTick s).result = .event .none := rfl
@[simp] theorem beginTick_conds : (beginTick s).conds = [] := rfl
@[simp] theorem beginTick_inbox : (beginTick s).inbox = s.inbox := rfl

/-! ### `unread` -/

@[simp] theorem unread_state (f : Frame) : (unread f s).state = s.state := rfl
@[simp] theorem unread_phase (f : Frame) : (unread f s).phase = s.phase := rfl
@[simp] theorem unread_seq (f : Frame) : (unread f s).seq = s.seq := rfl
@[simp] theorem unread_abfCount (f : Frame) : (unread f s).abfCount = s.abfCount := rfl
@[simp] theorem unread_tMark (f : Frame) : (unread f s).tMark = s.tMark := rfl
@[simp] theorem unread_cfg (f : Frame) : (unread f s).cfg = s.cfg := rfl
@[simp] theorem unread_lastSent (f : Frame) : (unread f s).lastSent = s.lastSent := rfl
@[simp] theorem unread_lastRecv (f : Frame) : (unread f s).lastRecv = s.lastRecv := rfl
@[simp] theorem unread_ackCtx (f : Frame) : (unread f s).ackCtx = s.ackCtx := rfl
@[simp] theorem unread_infoBuf (f : Frame) : (unread f s).infoBuf = s.infoBuf := rfl
@[simp] theorem unread_infoLen (f : Frame) : (unread f s).infoLen = s.infoLen := rfl
@[simp] theorem unread_rxbuf (f : Frame) : (unread f s).rxbuf = frameBytes f ++ s.rxbuf := rfl
@[simp] theorem unread_txlog (f : Frame) : (unread f s).txlog = s.txlog := rfl
@[simp] theorem unread_params (f : Frame) : (unread f s).params = s.params := rfl
@[simp] theorem unread_now (f : Frame) : (unread f s).now = s.now := rfl
@[simp] theorem unread_openCfg (f : Frame) : (unread f s).openCfg = s.openCfg := rfl
@[simp] theorem unread_result (f : Frame) : (unread f s).result = s.result := rfl
@[simp] theorem unread_conds (f : Frame) : (unread f s).conds = s.conds := rfl
@[simp] theorem unread_inbox (f : Frame) : (unread f s).inbox = s.inbox := rfl

/-! ### `emitFrame` -/

@[simp] theorem emitFrame_state (q p : I16) : (emitFrame q p s).state = s.state := rfl
@[simp] theorem emitFrame_phase (q p : I16) : (emitFrame q p s).phase = s.phase := rfl
@[simp] theorem emitFrame_seq (q p : I16) : (emitFrame q p s).seq = s.seq := rfl
@[simp] theorem emitFrame_abfCount (q p : I16) : (emitFrame q p s).abfCount = s.abfCount := rfl
@[simp] theorem emitFrame_tMark (q p : I16) : (emitFrame q p s).tMark = s.tMark := rfl
@[simp] theorem emitFrame_cfg (q p : I16) : (emitFrame q p s).cfg = s.cfg := rfl
@[simp] theorem emitFrame_lastSent (q p : I16) : (emitFrame q p s).lastSent = s.lastSent := rfl
@[simp] theorem emitFrame_lastRecv (q p : I16) : (emitFrame q p s).lastRecv = s.lastRecv := rfl
@[simp] theorem emitFrame_ackCtx (q p : I16) : (emitFrame q p s).ackCtx = s.ackCtx := rfl
@[simp] theorem emitFrame_infoBuf (q p : I16) : (emitFrame q p s).infoBuf = s.infoBuf := rfl
@[simp] theorem emitFrame_infoLen (q p : I16) : (emitFrame q p s).infoLen = s.infoLen := rfl
@[simp] theorem emitFrame_rxbuf (q p : I16) : (emitFrame q p s).rxbuf = s.rxbuf := rfl
@[simp] theorem emitFrame_txlog (q p : I16) :
    (emitFrame q p s).txlog = s.txlog ++ encodeFrame q p := rfl
@[simp] theorem emitFrame_params (q p : I16) : (emitFrame q p s).params = s.params := rfl
@[simp] theorem emitFrame_now (q p : I16) : (emitFrame q p s).now = s.now := rfl
@[simp] theorem emitFrame_openCfg (q p : I16) : (emitFrame q p s).openCfg = s.openCfg := rfl
@[simp] theorem emitFrame_result (q p : I16) : (emitFrame q p s).result = s.result := rfl
@[simp] theorem emitFrame_conds (q p : I16) : (emitFrame q p s).conds = s.conds := rfl
@[simp] theorem emitFrame_inbox (q p : I16) : (emitFrame q p s).inbox = s.inbox := rfl

/-! ### `emitNew` -/

@[simp] theorem emitNew_state (p : I16) : (emitNew p s).state = s.state := rfl
@[simp] theorem emitNew_phase (p : I16) : (emitNew p s).phase = s.phase := rfl
@[simp] theorem emitNew_seq (p : I16) : (emitNew p s).seq = s.seq + 1 := rfl
@[simp] theorem emitNew_abfCount (p : I16) : (emitNew p s).abfCount = s.abfCount := rfl
@[simp] theorem emitNew_tMark (p : I16) : (emitNew p s).tMark = s.tMark := rfl
@[simp] theorem emitNew_cfg (p : I16) : (emitNew p s).cfg = s.cfg := rfl
@[simp] theorem emitNew_lastSent (p : I16) : (emitNew p s).lastSent = s.lastSent := rfl
@[simp] theorem emitNew_lastRecv (p : I16) : (emitNew p s).lastRecv = s.lastRecv := rfl
@[simp] theorem emitNew_ackCtx (p : I16) : (emitNew p s).ackCtx = s.ackCtx := rfl
@[simp] theorem emitNew_infoBuf (p : I16) : (emitNew p s).infoBuf = s.infoBuf := rfl
@[simp] theorem emitNew_infoLen (p : I16) : (emitNew p s).infoLen = s.infoLen := rfl
@[simp] theorem emitNew_rxbuf (p : I16) : (emitNew p s).rxbuf = s.rxbuf := rfl
@[simp] theorem emitNew_txlog (p : I16) :
    (emitNew p s).txlog = s.txlog ++ encodeFrame s.seq p := rfl
@[simp] theorem emitNew_params (p : I16) : (emitNew p s).params = s.params := rfl
@[simp] theorem emitNew_now (p : I16) : (emitNew p s).now = s.now := rfl
@[simp] theorem emitNew_openCfg (p : I16) : (emitNew p s).openCfg = s.openCfg := rfl
@[simp] theorem emitNew_result (p : I16) : (emitNew p s).result = s.result := rfl
@[simp] theorem emitNew_conds (p : I16) : (emitNew p s).conds = s.conds := rfl
@[simp] theorem emitNew_inbox (p : I16) : (emitNew p s).inbox = s.inbox := rfl

/-! ### `waitIn` -/

@[simp] theorem waitIn_state (st : EngineState) : (waitIn st s).state = st := rfl
@[simp] theorem waitIn_phase (st : EngineState) : (waitIn st s).phase = s.phase := rfl
@[simp] theorem waitIn_seq (st : EngineState) : (waitIn st s).seq = s.seq := rfl
@[simp] theorem waitIn_abfCount (st : EngineState) : (waitIn st s).abfCount = s.abfCount := rfl
@[simp] theorem waitIn_tMark (st : EngineState) : (waitIn st s).tMark = s.now := rfl
@[simp] theorem waitIn_cfg (st : EngineState) : (waitIn st s).cfg = s.cfg := rfl
@[simp] theorem waitIn_lastSent (st : EngineState) : (waitIn st s).lastSent = s.lastSent := rfl
@[simp] theorem waitIn_lastRecv (st : EngineState) : (waitIn st s).lastRecv = s.lastRecv := rfl
@[simp] theorem waitIn_ackCtx (st : EngineState) : (waitIn st s).ackCtx = s.ackCtx := rfl
@[simp] theorem waitIn_infoBuf (st : EngineState) : (waitIn st s).infoBuf = s.infoBuf := rfl
@[simp] theorem waitIn_infoLen (st : EngineState) : (waitIn st s).infoLen = s.infoLen := rfl
@[simp] theorem waitIn_rxbuf (st : EngineState) : (waitIn st s).rxbuf = s.rxbuf := rfl
@[simp] theorem waitIn_txlog (st : EngineState) : (waitIn st s).txlog = s.txlog := rfl
@[simp] theorem waitIn_params (st : EngineState) : (waitIn st s).params = s.params := rfl
@[simp] theorem waitIn_now (st : EngineState) : (waitIn st s).now = s.now := rfl
@[simp] theorem waitIn_openCfg (st : EngineState) : (waitIn st s).openCfg = s.openCfg := rfl
@[simp] theorem waitIn_result (st : EngineState) : (waitIn st s).result = s.result := rfl
@[simp] theorem waitIn_conds (st : EngineState) : (waitIn st s).conds = s.conds := rfl
@[simp] theorem waitIn_inbox (st : EngineState) : (waitIn st s).inbox = s.inbox := rfl

/-! ### `dropLastSent` -/

@[simp] theorem dropLastSent_state : (dropLastSent s).state = s.state := rfl
@[simp] theorem dropLastSent_phase : (dropLastSent s).phase = s.phase := rfl
@[simp] theorem dropLastSent_seq : (dropLastSent s).seq = s.seq := rfl
@[simp] theorem dropLastSent_abfCount : (dropLastSent s).abfCount = s.abfCount := rfl
@[simp] theorem dropLastSent_tMark : (dropLastSent s).tMark = s.tMark := rfl
@[simp] theorem dropLastSent_cfg : (dropLastSent s).cfg = s.cfg := rfl
@[simp] theorem dropLastSent_lastSent :
    (dropLastSent s).lastSent = { s.lastSent with valid := false } := rfl
@[simp] theorem dropLastSent_lastRecv : (dropLastSent s).lastRecv = s.lastRecv := rfl
@[simp] theorem dropLastSent_ackCtx : (dropLastSent s).ackCtx = s.ackCtx := rfl
@[simp] theorem dropLastSent_infoBuf : (dropLastSent s).infoBuf = s.infoBuf := rfl
@[simp] theorem dropLastSent_infoLen : (dropLastSent s).infoLen = s.infoLen := rfl
@[simp] theorem dropLastSent_rxbuf : (dropLastSent s).rxbuf = s.rxbuf := rfl
@[simp] theorem dropLastSent_txlog : (dropLastSent s).txlog = s.txlog := rfl
@[simp] theorem dropLastSent_params : (dropLastSent s).params = s.params := rfl
@[simp] theorem dropLastSent_now : (dropLastSent s).now = s.now := rfl
@[simp] theorem dropLastSent_openCfg : (dropLastSent s).openCfg = s.openCfg := rfl
@[simp] theorem dropLastSent_result : (dropLastSent s).result = s.result := rfl
@[simp] theorem dropLastSent_conds : (dropLastSent s).conds = s.conds := rfl
@[simp] theorem dropLastSent_inbox : (dropLastSent s).inbox = s.inbox := rfl

/-! ### `sendApp` -/

@[simp] theorem sendApp_state (p : I16) : (sendApp p s).state = .waitingForAsciiSum := rfl
@[simp] theorem sendApp_phase (p : I16) : (sendApp p s).phase = s.phase := rfl
@[simp] theorem sendApp_seq (p : I16) : (sendApp p s).seq = s.seq + 1 := rfl
@[simp] theorem sendApp_abfCount (p : I16) : (sendApp p s).abfCount = s.abfCount := rfl
@[simp] theorem sendApp_tMark (p : I16) : (sendApp p s).tMark = s.now := rfl
@[simp] theorem sendApp_cfg (p : I16) : (sendApp p s).cfg = s.cfg := rfl
@[simp] theorem sendApp_lastSent (p : I16) :
    (sendApp p s).lastSent = { valid := true, seq := s.seq, payload := p, expected := checksum p } := rfl
@[simp] theorem sendApp_lastRecv (p : I16) : (sendApp p s).lastRecv = s.lastRecv := rfl
@[simp] theorem sendApp_ackCtx (p : I16) : (sendApp p s).ackCtx = s.ackCtx := rfl
@[simp] theorem sendApp_infoBuf (p : I16) : (sendApp p s).infoBuf = s.infoBuf := rfl
@[simp] theorem sendApp_infoLen (p : I16) : (sendApp p s).infoLen = s.infoLen := rfl
@[simp] theorem sendApp_rxbuf (p : I16) : (sendApp p s).rxbuf = s.rxbuf := rfl
@[simp] theorem sendApp_txlog (p : I16) :
    (sendApp p s).txlog = s.txlog ++ encodeFrame s.seq p := rfl
@[simp] theorem sendApp_params (p : I16) : (sendApp p s).params = s.params := rfl
@[simp] theorem sendApp_now (p : I16) : (sendApp p s).now = s.now := rfl
@[simp] theorem sendApp_openCfg (p : I16) : (sendApp p s).openCfg = s.openCfg := rfl
@[simp] theorem sendApp_result (p : I16) : (sendApp p s).result = s.result := rfl
@[simp] theorem sendApp_conds (p : I16) : (sendApp p s).conds = s.conds := rfl
@[simp] theorem sendApp_inbox (p : I16) : (sendApp p s).inbox = s.inbox := rfl

/-! ### `resend` -/

@[simp] theorem resend_state : (resend s).state = .waitingForAsciiSum := rfl
@[simp] theorem resend_phase : (resend s).phase = s.phase := rfl
@[simp] theorem resend_seq : (resend s).seq = s.seq := rfl
@[simp] theorem resend_abfCount : (resend s).abfCount = s.abfCount := rfl
@[simp] theorem resend_tMark : (resend s).tMark = s.now := rfl
@[simp] theorem resend_cfg : (resend s).cfg = s.cfg := rfl
@[simp] theorem resend_lastSent : (resend s).lastSent = s.lastSent := rfl
@[simp] theorem resend_lastRecv : (resend s).lastRecv = s.lastRecv := rfl
@[simp] theorem resend_ackCtx : (resend s).ackCtx = s.ackCtx := rfl
@[simp] theorem resend_infoBuf : (resend s).infoBuf = s.infoBuf := rfl
@[simp] theorem resend_infoLen : (resend s).infoLen = s.infoLen := rfl
@[simp] theorem resend_rxbuf : (resend s).rxbuf = s.rxbuf := rfl
@[simp] theorem resend_txlog :
    (resend s).txlog = s.txlog ++ encodeFrame s.lastSent.seq s.lastSent.payload := rfl
@[simp] theorem resend_params : (resend s).params = s.params := rfl
@[simp] theorem resend_now : (resend s).now = s.now := rfl
@[simp] theorem resend_openCfg : (resend s).openCfg = s.openCfg := rfl
@[simp] theorem resend_result : (resend s).result = s.result := rfl
@[simp] theorem resend_conds : (resend s).conds = s.conds := rfl
@[simp] theorem resend_inbox : (resend s).inbox = s.inbox := rfl

/-! ### `answerAbf` -/

@[simp] theorem answerAbf_state : (answerAbf s).state = s.state := rfl
@[simp] theorem answerAbf_phase : (answerAbf s).phase = s.phase := rfl
@[simp] theorem answerAbf_seq : (answerAbf s).seq = s.seq + 1 := rfl
@[simp] theorem answerAbf_abfCount : (answerAbf s).abfCount = s.abfCount := rfl
@[simp] theorem answerAbf_tMark : (answerAbf s).tMark = s.now := rfl
@[simp] theorem answerAbf_cfg : (answerAbf s).cfg = s.cfg := rfl
@[simp] theorem answerAbf_lastSent : (answerAbf s).lastSent = s.lastSent := rfl
@[simp] theorem answerAbf_lastRecv : (answerAbf s).lastRecv = s.lastRecv := rfl
@[simp] theorem answerAbf_ackCtx : (answerAbf s).ackCtx = s.ackCtx := rfl
@[simp] theorem answerAbf_infoBuf : (answerAbf s).infoBuf = s.infoBuf := rfl
@[simp] theorem answerAbf_infoLen : (answerAbf s).infoLen = s.infoLen := rfl
@[simp] theorem answerAbf_rxbuf : (answerAbf s).rxbuf = s.rxbuf := rfl
@[simp] theorem answerAbf_txlog :
    (answerAbf s).txlog = s.txlog ++ encodeFrame s.seq Config.opcAnt := rfl
@[simp] theorem answerAbf_params : (answerAbf s).params = s.params := rfl
@[simp] theorem answerAbf_now : (answerAbf s).now = s.now := rfl
@[simp] theorem answerAbf_openCfg : (answerAbf s).openCfg = s.openCfg := rfl
@[simp] theorem answerAbf_result : (answerAbf s).result = s.result := rfl
@[simp] theorem answerAbf_conds : (answerAbf s).conds = s.conds := rfl
@[simp] theorem answerAbf_inbox : (answerAbf s).inbox = s.inbox := rfl

/-! ### `confirm` -/

@[simp] theorem confirm_state : (confirm s).state = .inAckTimeoutBuffer := rfl
@[simp] theorem confirm_phase : (confirm s).phase = s.phase := rfl
@[simp] theorem confirm_seq : (confirm s).seq = s.seq + 1 := rfl
@[simp] theorem confirm_abfCount : (confirm s).abfCount = s.abfCount := rfl
@[simp] theorem confirm_tMark : (confirm s).tMark = s.now := rfl
@[simp] theorem confirm_cfg : (confirm s).cfg = s.cfg := rfl
@[simp] theorem confirm_lastSent : (confirm s).lastSent = s.lastSent := rfl
@[simp] theorem confirm_lastRecv : (confirm s).lastRecv = s.lastRecv := rfl
@[simp] theorem confirm_ackCtx : (confirm s).ackCtx = s.ackCtx := rfl
@[simp] theorem confirm_infoBuf : (confirm s).infoBuf = s.infoBuf := rfl
@[simp] theorem confirm_infoLen : (confirm s).infoLen = s.infoLen := rfl
@[simp] theorem confirm_rxbuf : (confirm s).rxbuf = s.rxbuf := rfl
@[simp] theorem confirm_txlog :
    (confirm s).txlog = s.txlog ++ encodeFrame s.seq Config.opcAck := rfl
@[simp] theorem confirm_params : (confirm s).params = s.params := rfl
@[simp] theorem confirm_now : (confirm s).now = s.now := rfl
@[simp] theorem confirm_openCfg : (confirm s).openCfg = s.openCfg := rfl
@[simp] theorem confirm_result : (confirm s).result = s.result := rfl
@[simp] theorem confirm_conds : (confirm s).conds = s.conds := rfl
@[simp] theorem confirm_inbox : (confirm s).inbox = s.inbox := rfl

/-! ### `dataReceive` -/

@[simp] theorem dataReceive_state (f : Frame) : (dataReceive f s).state = .waitingForAck := rfl
@[simp] theorem dataReceive_phase (f : Frame) : (dataReceive f s).phase = s.phase := rfl
@[simp] theorem dataReceive_seq (f : Frame) : (dataReceive f s).seq = s.seq + 1 := rfl
@[simp] theorem dataReceive_abfCount (f : Frame) : (dataReceive f s).abfCount = s.abfCount := rfl
@[simp] theorem dataReceive_tMark (f : Frame) : (dataReceive f s).tMark = s.now := rfl
@[simp] theorem dataReceive_cfg (f : Frame) : (dataReceive f s).cfg = s.cfg := rfl
@[simp] theorem dataReceive_lastSent (f : Frame) : (dataReceive f s).lastSent = s.lastSent := rfl
@[simp] theorem dataReceive_lastRecv (f : Frame) :
    (dataReceive f s).lastRecv = { valid := true, seq := f.seq, payload := f.payload } := rfl
@[simp] theorem dataReceive_ackCtx (f : Frame) :
    (dataReceive f s).ackCtx = if f.payload = Config.opcStx then .stx else .data := rfl
@[simp] theorem dataReceive_infoBuf (f : Frame) : (dataReceive f s).infoBuf = s.infoBuf := rfl
@[simp] theorem dataReceive_infoLen (f : Frame) : (dataReceive f s).infoLen = s.infoLen := rfl
@[simp] theorem dataReceive_rxbuf (f : Frame) : (dataReceive f s).rxbuf = s.rxbuf := rfl
@[simp] theorem dataReceive_txlog (f : Frame) :
    (dataReceive f s).txlog = s.txlog ++ encodeFrame s.seq (checksum f.payload) := rfl
@[simp] theorem dataReceive_params (f : Frame) : (dataReceive f s).params = s.params := rfl
@[simp] theorem dataReceive_now (f : Frame) : (dataReceive f s).now = s.now := rfl
@[simp] theorem dataReceive_openCfg (f : Frame) : (dataReceive f s).openCfg = s.openCfg := rfl
@[simp] theorem dataReceive_result (f : Frame) : (dataReceive f s).result = s.result := rfl
@[simp] theorem dataReceive_conds (f : Frame) : (dataReceive f s).conds = s.conds := rfl
@[simp] theorem dataReceive_inbox (f : Frame) : (dataReceive f s).inbox = s.inbox := rfl

/-! ### `enterClosed` -/

@[simp] theorem enterClosed_state : (enterClosed s).state = .connectionClosed := rfl
@[simp] theorem enterClosed_phase : (enterClosed s).phase = .notOpen := rfl
@[simp] theorem enterClosed_seq : (enterClosed s).seq = s.seq := rfl
@[simp] theorem enterClosed_abfCount : (enterClosed s).abfCount = s.abfCount := rfl
@[simp] theorem enterClosed_tMark : (enterClosed s).tMark = s.tMark := rfl
@[simp] theorem enterClosed_cfg : (enterClosed s).cfg = s.cfg := rfl
@[simp] theorem enterClosed_lastSent : (enterClosed s).lastSent = s.lastSent := rfl
@[simp] theorem enterClosed_lastRecv : (enterClosed s).lastRecv = s.lastRecv := rfl
@[simp] theorem enterClosed_ackCtx : (enterClosed s).ackCtx = s.ackCtx := rfl
@[simp] theorem enterClosed_infoBuf : (enterClosed s).infoBuf = s.infoBuf := rfl
@[simp] theorem enterClosed_infoLen : (enterClosed s).infoLen = s.infoLen := rfl
@[simp] theorem enterClosed_rxbuf : (enterClosed s).rxbuf = s.rxbuf := rfl
@[simp] theorem enterClosed_txlog : (enterClosed s).txlog = s.txlog := rfl
@[simp] theorem enterClosed_params : (enterClosed s).params = s.params := rfl
@[simp] theorem enterClosed_now : (enterClosed s).now = s.now := rfl
@[simp] theorem enterClosed_openCfg : (enterClosed s).openCfg = s.openCfg := rfl
@[simp] theorem enterClosed_result : (enterClosed s).result = .event (closingEvent s) := rfl
@[simp] theorem enterClosed_conds : (enterClosed s).conds = s.conds := rfl
@[simp] theorem enterClosed_inbox : (enterClosed s).inbox = s.inbox := rfl

end Sys2Proof.Machine
end

