-- ==== Sys2Proof/Laws/Ops.lean ====
section
/-! SUPPORT. For each shared operation one lemma that says everything it does: the state it leaves,
written out, with its guards. -/

namespace Sys2Proof.Machine

open Sys2Proof

/-! ### Tests -/

theorem elapsed_eq (now t i : U32) : elapsed now t i = decide (i.toNat ≤ (now - t).toNat) := rfl

/-- The deadline test on the numbers themselves. -/
theorem elapsed_iff_expired (now t i : U32) : elapsed now t i = true ↔ Expired now t i := by
  simp only [elapsed_eq, Expired, decide_eq_true_eq, BitVec.toNat_sub]
  rw [Nat.add_comm]

/-! ### The byte streams -/

theorem rxPush_eq (b : Byte) (s : State) :
    rxPush b s = { s with
      rxbuf := if s.rxbuf.length < s.params.rxDepth then s.rxbuf ++ [b] else s.rxbuf } := by
  unfold rxPush; split <;> rfl

theorem unread_eq (f : Frame) (s : State) :
    unread f s = { s with rxbuf := encodeFrame f.seq f.payload ++ s.rxbuf } := rfl

theorem emitFrame_eq (q p : I16) (s : State) :
    emitFrame q p s = { s with txlog := s.txlog ++ encodeFrame q p } := rfl

theorem emitNew_eq (p : I16) (s : State) :
    emitNew p s = { s with seq := s.seq + 1, txlog := s.txlog ++ encodeFrame s.seq p } := rfl

theorem encodeFrame_length (q p : I16) : (encodeFrame q p).length = 4 := rfl

/-- The four bytes of a frame give the frame back. -/
theorem frameOfBytes_encodeFrame (q p : I16) :
    frameOfBytes (p.extractLsb' 8 8) (p.extractLsb' 0 8) (q.extractLsb' 8 8) (q.extractLsb' 0 8) =
      { seq := q, payload := p } := by
  have halves (v : I16) : (v.extractLsb' 8 8 ++ v.extractLsb' 0 8 : BitVec 16) = v := by
    apply BitVec.eq_of_toNat_eq
    have hv := v.isLt
    have hl : (v.extractLsb' 0 8).toNat < 2 ^ 8 := (v.extractLsb' 0 8).isLt
    rw [BitVec.toNat_append, Nat.shiftLeft_eq, Nat.mul_comm, ← Nat.two_pow_add_eq_or_of_lt hl]
    simp only [BitVec.extractLsb'_toNat, Nat.shiftRight_eq_div_pow]
    omega
  simp [frameOfBytes, halves]

/-- `Decode` takes back what `Encode` put in front (40_codec.md R102). -/
theorem decodeRx_unread (f : Frame) (s : State) : decodeRx (unread f s) = .ok (f, s) := by
  simp only [unread_eq, encodeFrame, decodeRx, List.cons_append, List.nil_append]
  rw [frameOfBytes_encodeFrame]

/-! ### The tick and the sequence counter -/

theorem beginTick_eq (s : State) : beginTick s = ticked s := rfl

theorem trackSeq_eq (r : I16) (s : State) : trackSeq r s = { s with seq := trackedSeq r s.seq } := by
  unfold trackSeq trackedSeq seqReached
  by_cases h : s.seq.toInt ≤ r.toInt <;> simp [h]

/-- A tick that takes a frame handles it in the tracked state. -/
theorem trackSeq_beginTick (r : I16) (s : State) : trackSeq r (beginTick s) = tracked r s := by
  rw [trackSeq_eq]; rfl

theorem ticked_ticked (s : State) : ticked (ticked s) = ticked s := rfl

/-! ### Shared procedures -/

theorem sendApp_eq (p : I16) (s : State) :
    sendApp p s = { s with
      lastSent := { valid := true, seq := s.seq, payload := p, expected := checksum p }
      seq := s.seq + 1, txlog := s.txlog ++ encodeFrame s.seq p
      state := .waitingForAsciiSum, tMark := s.now } := rfl

theorem resend_eq (s : State) :
    resend s = { s with
      txlog := s.txlog ++ encodeFrame s.lastSent.seq s.lastSent.payload
      state := .waitingForAsciiSum, tMark := s.now } := rfl

theorem answerAbf_eq (s : State) :
    answerAbf s = { s with
      seq := s.seq + 1, txlog := s.txlog ++ encodeFrame s.seq 0x0016, tMark := s.now } := rfl

theorem confirm_eq (s : State) :
    confirm s = { s with
      seq := s.seq + 1, txlog := s.txlog ++ encodeFrame s.seq 0x0006
      state := .inAckTimeoutBuffer, tMark := s.now } := rfl

theorem dataReceive_eq (f : Frame) (s : State) :
    dataReceive f s = { s with
      lastRecv := { valid := true, seq := f.seq, payload := f.payload }
      ackCtx := if f.payload = 0x0002 then .stx else .data
      seq := s.seq + 1, txlog := s.txlog ++ encodeFrame s.seq (checksum f.payload)
      state := .waitingForAck, tMark := s.now } := rfl

theorem enterOkContinue_eq (s : State) : enterOkContinue s = exchangeDone s := rfl

theorem endHold_eq (s : State) : endHold s = holdOver s := rfl

theorem ackReceived_tracked (q : I16) (s : State) :
    ackReceived (tracked q s) = ackTaken q s := by
  unfold ackReceived ackTaken
  cases h : s.ackCtx <;> simp [tracked, h] <;> rfl

theorem enterClosed_meet (c : Condition) (s : State) :
    enterClosed (meet c s) = closedAfter (s.conds ++ [c]) s := rfl

theorem enterClosed_eq (s : State) : enterClosed s = closedAfter s.conds s := rfl

theorem dataReceive_tracked (q p : I16) (s : State) :
    dataReceive { seq := q, payload := p } (tracked q s) = dataAnswered q p s := by
  rw [dataReceive_eq]; rfl

theorem answerAbf_tracked (q : I16) (s : State) : answerAbf (tracked q s) = abfAnswered q s := by
  rw [answerAbf_eq]; rfl

theorem confirm_tracked (q : I16) (s : State) : confirm (tracked q s) = replyConfirmed q s := by
  rw [confirm_eq]; rfl

/-- A wait that ends in `SendAbf` (44_recovery.md R170). -/
theorem sendAbf_meet (c : Condition) (s : State) :
    sendAbf (meet c (beginTick s)) = abfAttempt c s := by
  have hc : (meet c (beginTick s)).cfg = s.cfg := rfl
  have ha : (meet c (beginTick s)).abfCount = s.abfCount := rfl
  unfold sendAbf abfAttempt
  rw [hc, ha]
  by_cases h : s.cfg.maxAbfAttempts.toNat ≤ s.abfCount.toNat
  · rw [if_pos h, if_pos (BitVec.le_def.2 h), enterClosed_meet]
    simp [closedAfter, meet, beginTick]
    rfl
  · rw [if_neg h, if_neg (fun h' => h (BitVec.le_def.1 h'))]
    simp [emitNew, meet, beginTick, Config.opcAbf]

/-! ### The transmit stream as frames -/

/-- A frame appended to whole frames adds its payload and nothing else. -/
theorem sentPayloads_append (log : List Byte) (q p : I16) (h : log.length % 4 = 0) :
    sentPayloads (log ++ encodeFrame q p) = sentPayloads log ++ [p] := by
  fun_induction sentPayloads log with
  | case1 b0 b1 b2 b3 rest ih =>
    simp only [List.length_cons] at h
    simp [sentPayloads, ih (by omega)]
  | case2 log hshort =>
    rcases log with _ | ⟨b0, _ | ⟨b1, _ | ⟨b2, _ | ⟨b3, rest⟩⟩⟩⟩
    case nil =>
      have hp := (congrArg Frame.payload (frameOfBytes_encodeFrame q p))
      simpa [encodeFrame, sentPayloads, frameOfBytes] using hp
    case cons.cons.cons.cons => exact absurd rfl (hshort b0 b1 b2 b3 rest)
    all_goals simp at h

/-! ### The info message -/

theorem infoDone_eq (s : State) :
    infoDone s = { s with
      ackCtx := .info, seq := s.seq + 1
      txlog := s.txlog ++ encodeFrame s.seq (checksumText (Memory.text s.infoBuf s.infoLen))
      state := .waitingForAck, tMark := s.now } := rfl

/-- What one tick reads of a message, with every case (43_steady_state.md R160). -/
theorem infoStep_eq (s : State) :
    infoStep s =
      if (readInfo s).done = true then
        infoDone { s with rxbuf := (readInfo s).rest, infoBuf := (readInfo s).buf,
                          infoLen := (readInfo s).len }
      else { s with rxbuf := (readInfo s).rest, infoBuf := (readInfo s).buf,
                    infoLen := (readInfo s).len } := rfl

/-- The loop over bytes that hold no 0x00 and fit takes them all and goes on. -/
theorem readUntilNul_append (max : Nat) (pre rest : List Byte) (m : Memory) (len : Nat)
    (h0 : 0 ∉ pre) (hl : len + pre.length ≤ max) :
    readUntilNul max (pre ++ rest) m len =
      readUntilNul max rest (Memory.writeRun m len pre) (len + pre.length) := by
  induction pre generalizing m len with
  | nil => rfl
  | cons b pre ih =>
    simp only [List.mem_cons, not_or, List.length_cons] at h0 hl
    simp only [List.cons_append, readUntilNul, show len < max by omega, if_true, Ne.symm h0.1,
      if_false, Memory.writeRun, List.length_cons]
    rw [ih _ _ h0.2 (by omega)]
    congr 1
    omega

/-- What the loop leaves: a suffix of the buffer, and a length between the old one and the bound. -/
theorem readUntilNul_bounds (max : Nat) (bs : List Byte) (m : Memory) (len : Nat) (h : len ≤ max) :
    len ≤ (readUntilNul max bs m len).len ∧ (readUntilNul max bs m len).len ≤ max ∧
    ∃ n, n ≤ max - len ∧ (readUntilNul max bs m len).rest = bs.drop n ∧
      (readUntilNul max bs m len).buf = Memory.writeRun m len (bs.take n) := by
  induction bs generalizing m len with
  | nil => exact ⟨le_refl _, h, 0, Nat.zero_le _, rfl, rfl⟩
  | cons b bs ih =>
    unfold readUntilNul
    split
    · next hlt =>
      split
      · exact ⟨Nat.le_succ _, hlt, 1, by omega, rfl, rfl⟩
      · obtain ⟨h1, h2, n, h3, h4, h5⟩ := ih (Memory.write m len b) (len + 1) hlt
        exact ⟨by omega, h2, n + 1, by omega, h4, h5⟩
    · exact ⟨le_refl _, h, 0, Nat.zero_le _, rfl, rfl⟩

end Sys2Proof.Machine
end

