-- ==== Sys2Proof/Laws/Exec.lean ====
section
/-! SUPPORT. What a step can do, said once: the frame rows are one operation over the frame, a tick is
one of four cases, and a step is an operation, a byte, or nothing. -/

namespace Sys2Proof.Machine

open Sys2Proof

/-- Every frame row is the tick that meets its frame. -/
theorem exec_frameRow {i : Instr} {q p : I16} (h : FrameRow i q p) (s : State) :
    exec i s = meetFrame { seq := q, payload := p } s := by
  rcases h with ⟨rfl, rfl⟩ | ⟨rfl, rfl⟩ | ⟨rfl, rfl⟩ | ⟨rfl, rfl⟩ | ⟨rfl, rfl⟩ | ⟨rfl, rfl⟩ |
    ⟨rfl, rfl⟩ | ⟨rfl, -⟩ <;> rfl

/-- The row that a payload names. -/
theorem frameRow_frameInstr (p q : I16) : FrameRow (frameInstr p q) q p := by
  rcases classify_cases p with h | h | h | h | h | h | h | h <;>
    simp [FrameRow, frameInstr, h.2, h.1]
  exact (wellFormed_data_iff p q).2 h.2

/-- Whatever row a frame's class picks, it is the tick that meets the frame. -/
theorem runFrame_eq (f : Frame) (s : State) : runFrame f s = meetFrame f s := by
  rcases f with ⟨q, p⟩
  rcases classify_cases p with h | h | h | h | h | h | h | h <;>
    simp only [runFrame, h.2] <;> first | rfl | (rw [h.1]; rfl)

/-- Meeting a frame in an open session or handshake that awaits no text. -/
theorem meetFrame_open (f : Frame) (s : State) (hp : s.phase ≠ .notOpen)
    (hs : s.state ≠ .waitingForInfoMessage) :
    meetFrame f s = ruled (dispatch f (tracked f.seq s)) := by
  simp only [meetFrame, hp, hs, if_false, trackSeq_beginTick]

/-- Meeting a frame while closed. -/
theorem meetFrame_closed (f : Frame) (s : State) (hp : s.phase = .notOpen) :
    meetFrame f s = .next (unread f (ticked s)) := by
  simp [meetFrame, hp, beginTick_eq]

/-- Meeting a frame while text is awaited. -/
theorem meetFrame_info (f : Frame) (s : State) (hp : s.phase ≠ .notOpen)
    (hs : s.state = .waitingForInfoMessage) :
    meetFrame f s = .next (infoStep (unread f (ticked s))) := by
  simp [meetFrame, hp, hs, beginTick_eq]

/-- Every frame that is met completes, unless the pair has no rule. -/
theorem meetFrame_cases (f : Frame) (s : State) :
    (∃ t, meetFrame f s = .next t) ∨ meetFrame f s = .fault .noDispatchRule := by
  by_cases hp : s.phase = .notOpen
  · exact .inl ⟨_, meetFrame_closed f s hp⟩
  · by_cases hs : s.state = .waitingForInfoMessage
    · exact .inl ⟨_, meetFrame_info f s hp hs⟩
    · rw [meetFrame_open f s hp hs]
      cases dispatch f (tracked f.seq s)
      · exact .inr rfl
      · exact .inl ⟨_, rfl⟩

/-- A tick, case by case (41_engine_core.md R111). -/
theorem execTick_cases (s : State) :
    (s.phase = .notOpen ∧ exec .tick s = .next (ticked s)) ∨
    (s.phase ≠ .notOpen ∧ s.state = .waitingForInfoMessage ∧ s.rxbuf = [] ∧
      exec .tick s = .next (ticked s)) ∨
    (s.phase ≠ .notOpen ∧ s.state = .waitingForInfoMessage ∧ s.rxbuf ≠ [] ∧
      exec .tick s = .next (infoStep (ticked s))) ∨
    (s.phase ≠ .notOpen ∧ s.state ≠ .waitingForInfoMessage ∧ ∃ b0 b1 b2 b3 rest,
      s.rxbuf = b0 :: b1 :: b2 :: b3 :: rest ∧
      exec .tick s = meetFrame (frameOfBytes b0 b1 b2 b3) (ticked { s with rxbuf := rest })) ∨
    (NoFrame s ∧ exec .tick s = .next (timerStep (ticked s))) := by
  by_cases hp : s.phase = .notOpen
  · exact .inl ⟨hp, by simp [exec, execTick, hp, beginTick_eq]⟩
  by_cases hs : s.state = .waitingForInfoMessage
  · by_cases hr : s.rxbuf = []
    · exact .inr (.inl ⟨hp, hs, hr, by simp [exec, execTick, hp, hs, rxCount, hr, beginTick_eq]⟩)
    · have : 1 ≤ s.rxbuf.length := List.length_pos_of_ne_nil hr
      exact .inr (.inr (.inl ⟨hp, hs, hr, by simp [exec, execTick, hp, hs, rxCount, this, beginTick_eq]⟩))
  · by_cases hn : s.rxbuf.length < 4
    · exact .inr (.inr (.inr (.inr ⟨⟨hp, hs, hn⟩, by
        simp [exec, execTick, hp, hs, rxCount, Nat.not_le.2 hn, beginTick_eq]⟩)))
    · rcases hr : s.rxbuf with _ | ⟨b0, _ | ⟨b1, _ | ⟨b2, _ | ⟨b3, rest⟩⟩⟩⟩
      case cons.cons.cons.cons =>
        refine .inr (.inr (.inr (.inl ⟨hp, hs, b0, b1, b2, b3, rest, rfl, ?_⟩)))
        have hd : decodeRx (beginTick s) =
            .ok (frameOfBytes b0 b1 b2 b3, (ticked { s with rxbuf := rest })) := by
          have hb : (beginTick s).rxbuf = b0 :: b1 :: b2 :: b3 :: rest := hr
          simp only [decodeRx, hb]; rfl
        simp only [exec, execTick, hp, hs, rxCount, Nat.not_lt.1 hn, if_false, if_true, hd]
        exact runFrame_eq _ _
      all_goals exact absurd (by simp [hr]) hn

/-- A step, case by case: nothing, a byte, a reserved word, or an operation with its operands. -/
theorem step_cases (s : State) :
    (s.inbox = [] ∧ step s = .next s) ∨
    (∃ b rest, s.inbox = .rxByte b :: rest ∧ step s = .next (rxPush b { s with inbox := rest })) ∨
    (∃ w now cfg rest e, s.inbox = .host w now cfg :: rest ∧ decodeHostCmd w = .error e ∧
      step s = .fault .reservedCommand) ∨
    (∃ w now cfg rest i, s.inbox = .host w now cfg :: rest ∧ decodeHostCmd w = .ok i ∧
      step s = exec i { s with inbox := rest, now := now, openCfg := cfg }) := by
  rcases h : s.inbox with _ | ⟨⟨w, now, cfg⟩ | b, rest⟩
  · exact .inl ⟨rfl, by simp [step, fetch, h]⟩
  · cases hd : decodeHostCmd w with
    | error e =>
      exact .inr (.inr (.inl ⟨w, now, cfg, rest, e, rfl, hd, by simp [step, fetch, h, hd, hostFault]⟩))
    | ok i =>
      exact .inr (.inr (.inr ⟨w, now, cfg, rest, i, rfl, hd, by simp [step, fetch, h, hd]⟩))
  · exact .inr (.inl ⟨b, rest, rfl, by simp [step, fetch, h]⟩)

/-- The word that `withFetchWord` places runs next: a host word as an operation. -/
theorem step_withFetchWord_host {s : State} {nbits w : Nat} {i : Instr}
    (h : decodeHostCmd (BitVec.ofNat 32 w) = .ok i) :
    step (s.withFetchWord nbits w) = exec i s := by
  simp [State.withFetchWord, placeWord, h, step, fetch]

end Sys2Proof.Machine
end

