-- ==== Sys2Proof/Laws/Effects.lean ====
section
/-! SUPPORT. What a frame, a timer and a read of info text can do, each said once as a closed list of
cases with their guards; every claim about the machine can be proved by cases on these lists. -/

namespace Sys2Proof.Machine

open Sys2Proof

/-- The state is one of the three recovery states (44_recovery.md R172). -/
def Recovering (s : State) : Prop :=
  s.state = .waitingForAnt ∨ s.state = .waitingForMoreAnt ∨ s.state = .waitingForRepMessage

/-- What a dispatched frame of sequence number `q` and payload `p` can do in an open session or
handshake: the state before the tick, and the state it leaves. -/
inductive FrameEffect (q p : I16) : State → State → Prop where
  | versionSent {s : State} (hs : s.state = .waitingForSignal) (hp : s.phase = .hsWaitSoh)
      (h : p = 0x0001) : FrameEffect q p s (versionSent q s)
  | discarded {s : State} (hs : s.state = .waitingForSignal) (hp : s.phase = .hsWaitSoh)
      (h : p ≠ 0x0001) : FrameEffect q p s (tracked q s)
  | opened {s : State} (hs : s.state = .waitingForSignal) (hp : s.phase = .hsWaitEtx)
      (h : p = 0x0003) : FrameEffect q p s (sessionOpened q s)
  | rejected {s : State} (hs : s.state = .waitingForSignal) (hp : s.phase = .hsWaitEtx)
      (h : p ≠ 0x0003) : FrameEffect q p s (closedAfter [.handshakeRejected] (tracked q s))
  | ant {s : State} (hs : s.state = .okContinue ∨ Recovering s) (h : p = 0x0016) :
      FrameEffect q p s (antNoted q s)
  | abf {s : State} (hs : s.state = .okContinue ∨ s.state = .waitingForAck ∨
      s.state = .inAckTimeoutBuffer ∨ Recovering s) (h : p = 0x0015) :
      FrameEffect q p s (abfAnswered q s)
  | data {s : State} (hs : s.state = .okContinue ∨ s.state = .waitingForAck ∨
      Recovering s ∧ s.lastSent.valid = false) (h : p ≠ 0x0015) :
      FrameEffect q p s (dataAnswered q p s)
  | confirmed {s : State} (hs : s.state = .waitingForAsciiSum ∨
      Recovering s ∧ s.lastSent.valid = true) (h : p = s.lastSent.expected) :
      FrameEffect q p s (replyConfirmed q s)
  | mismatch {s : State} (hs : s.state = .waitingForAsciiSum) (h : p ≠ s.lastSent.expected) :
      FrameEffect q p s (signalResent .checksumMismatch (tracked q s))
  | ack {s : State} (hs : s.state = .waitingForAck ∨ Recovering s ∧ s.lastSent.valid = false)
      (h : p = 0x0006) : FrameEffect q p s (ackTaken q s)
  | unmatched {s : State} (hs : Recovering s) (hv : s.lastSent.valid = true)
      (h : p ≠ s.lastSent.expected) : FrameEffect q p s (tracked q s)
  | absorbed {s : State} (hs : s.state = .inAckTimeoutBuffer) (h : p = s.lastSent.expected) :
      FrameEffect q p s { tracked q s with tMark := s.now }
  | afterHold {s t : State} (hs : s.state = .inAckTimeoutBuffer) (h1 : p ≠ 0x0015)
      (h2 : p ≠ s.lastSent.expected) (h : FrameEffect q p (holdOver s) t) : FrameEffect q p s t

theorem holdOver_tracked (q : I16) (s : State) : holdOver (tracked q s) = tracked q (holdOver s) := by
  by_cases hp : s.phase = .hsVersion <;> simp [holdOver, exchangeDone, hp, tracked]

/-- The state after the hold is one of two, and neither is the hold (43_steady_state.md R158). -/
theorem holdOver_state (s : State) :
    ((holdOver s).state = .waitingForSignal ∧ (holdOver s).phase = .hsWaitEtx ∧
      s.phase = .hsVersion) ∨
    ((holdOver s).state = .okContinue ∧ (holdOver s).phase = s.phase ∧ s.phase ≠ .hsVersion) := by
  by_cases hp : s.phase = .hsVersion <;> simp [holdOver, exchangeDone, hp]

theorem okContinueFrame_effect (q p : I16) (s : State) (hs : s.state = .okContinue) :
    FrameEffect q p s (okContinueFrame { seq := q, payload := p } (tracked q s)) := by
  rcases classify_cases p with h | h | h | h | h | h | h | h <;> simp only [okContinueFrame, h.2]
  case inr.inr.inr.inr.inr.inl => exact .abf (.inl hs) h.1
  case inr.inr.inr.inr.inr.inr.inl => exact .ant (.inl hs) h.1
  case inr.inr.inr.inr.inr.inr.inr =>
    exact .data (.inl hs) (fun hp => h.1 (by simp [Config.opcodes, Config.opcAbf, hp]))
  all_goals exact .data (.inl hs) (by rw [h.1]; decide)

theorem ackWaitFrame_effect (q p : I16) (s : State) (hs : s.state = .waitingForAck) :
    FrameEffect q p s (ackWaitFrame { seq := q, payload := p } (tracked q s)) := by
  rcases classify_cases p with h | h | h | h | h | h | h | h <;> simp only [ackWaitFrame, h.2]
  case inr.inr.inr.inr.inl => rw [ackReceived_tracked]; exact .ack (.inl hs) h.1
  case inr.inr.inr.inr.inr.inl => exact .abf (.inr (.inl hs)) h.1
  case inr.inr.inr.inr.inr.inr.inr =>
    exact .data (.inr (.inl hs)) (fun hp => h.1 (by simp [Config.opcodes, Config.opcAbf, hp]))
  all_goals exact .data (.inr (.inl hs)) (by rw [h.1]; decide)

theorem asciiSumFrame_effect (q p : I16) (s : State) (hs : s.state = .waitingForAsciiSum) :
    FrameEffect q p s (asciiSumFrame { seq := q, payload := p } (tracked q s)) := by
  have hl : (tracked q s).lastSent = s.lastSent := rfl
  unfold asciiSumFrame
  rw [hl]
  split
  · next h => exact .confirmed (.inl hs) h
  · next h => exact .mismatch hs h

theorem recoveryFrame_effect (q p : I16) (s : State) (hs : Recovering s) :
    FrameEffect q p s (recoveryFrame { seq := q, payload := p } (tracked q s)) := by
  have hl : (tracked q s).lastSent = s.lastSent := rfl
  unfold recoveryFrame
  rw [hl]
  split
  · next h => exact .ant (.inr hs) h
  · split
    · next h => exact .abf (.inr (.inr (.inr hs))) h
    · next hb =>
      split
      · next hv =>
        split
        · next h => exact .confirmed (.inr ⟨hs, hv⟩) h
        · next h => exact .unmatched hs hv h
      · next hv =>
        have hv' : s.lastSent.valid = false := by simpa using hv
        split
        · next h => rw [ackReceived_tracked]; exact .ack (.inr ⟨hs, hv'⟩) h
        · exact .data (.inr (.inr ⟨hs, hv'⟩)) hb

theorem sohWaitFrame_effect (q p : I16) (s : State) (hs : s.state = .waitingForSignal)
    (hp : s.phase = .hsWaitSoh) :
    FrameEffect q p s (sohWaitFrame { seq := q, payload := p } (tracked q s)) := by
  unfold sohWaitFrame
  split
  · next h => exact .versionSent hs hp h
  · next h => exact .discarded hs hp h

theorem etxWaitFrame_effect (q p : I16) (s : State) (hs : s.state = .waitingForSignal)
    (hp : s.phase = .hsWaitEtx) :
    FrameEffect q p s (etxWaitFrame { seq := q, payload := p } (tracked q s)) := by
  unfold etxWaitFrame
  split
  · next h => exact .opened hs hp h
  · next h => rw [enterClosed_meet]; exact .rejected hs hp h

/-- A dispatch outside the hold is one of the listed effects. -/
theorem dispatchOutsideHold_effect {q p : I16} {s t : State}
    (h : dispatchOutsideHold { seq := q, payload := p } (tracked q s) = some t) :
    FrameEffect q p s t := by
  have h1 : (tracked q s).state = s.state := rfl
  have h2 : (tracked q s).phase = s.phase := rfl
  unfold dispatchOutsideHold at h
  rw [h1, h2] at h
  cases hs : s.state <;> simp only [hs] at h
  case waitingForSignal =>
    cases hp : s.phase <;> simp only [hp, reduceCtorEq, Option.some.injEq] at h <;> subst h
    · exact sohWaitFrame_effect q p s hs hp
    · exact etxWaitFrame_effect q p s hs hp
  case okContinue => cases h; exact okContinueFrame_effect q p s hs
  case waitingForAsciiSum => cases h; exact asciiSumFrame_effect q p s hs
  case waitingForAck => cases h; exact ackWaitFrame_effect q p s hs
  case waitingForAnt => cases h; exact recoveryFrame_effect q p s (.inl hs)
  case waitingForMoreAnt => cases h; exact recoveryFrame_effect q p s (.inr (.inl hs))
  case waitingForRepMessage => cases h; exact recoveryFrame_effect q p s (.inr (.inr hs))
  all_goals cases h

/-- A dispatch is one of the listed effects. -/
theorem dispatch_effect {q p : I16} {s t : State}
    (h : dispatch { seq := q, payload := p } (tracked q s) = some t) : FrameEffect q p s t := by
  unfold dispatch at h
  split at h
  · next hs =>
    unfold holdFrame at h
    split at h
    · next hb => cases h; exact .abf (.inr (.inr (.inl hs))) hb
    · next hb =>
      split at h
      · next he => cases h; exact .absorbed hs he
      · next he =>
        rw [endHold_eq, holdOver_tracked] at h
        exact .afterHold hs hb he (dispatchOutsideHold_effect h)
  · exact dispatchOutsideHold_effect h

/-- What a tick that consumes no frame can do. -/
inductive TimerEffect : State → State → Prop where
  | idle {s : State} : TimerEffect s (ticked s)
  | abf {s : State} (c : Condition) (hs : s.state = .waitingForAsciiSum ∨ s.state = .waitingForAck ∨
      s.state = .waitingForAnt) : TimerEffect s (abfAttempt c s)
  | etx {s : State} (hs : s.state = .waitingForSignal) (hp : s.phase = .hsWaitEtx) :
      TimerEffect s (closedAfter [.handshakeTimeout] (ticked s))
  | hold {s : State} (hs : s.state = .inAckTimeoutBuffer) : TimerEffect s (holdOver (ticked s))
  | refresh {s : State} (hs : s.state = .waitingForMoreAnt) (hv : s.lastSent.valid = true) :
      TimerEffect s (signalResent .refreshTimeout (ticked s))
  | rest {s : State} (hs : s.state = .waitingForMoreAnt) (hv : s.lastSent.valid = false) :
      TimerEffect s (waitIn .waitingForRepMessage (meet .refreshTimeout (ticked s)))

/-- The timer step is one of the listed effects. -/
theorem timerStep_effect (s : State) : TimerEffect s (timerStep (ticked s)) := by
  have h1 : (ticked s).state = s.state := rfl
  have h2 : (ticked s).phase = s.phase := rfl
  have h3 : (ticked s).lastSent = s.lastSent := rfl
  unfold timerStep
  split
  · next i hi =>
    split
    · unfold timerInterval at hi
      unfold timerExpired
      rw [h1] at hi ⊢
      cases hs : s.state <;> simp only [hs] at hi ⊢
      case waitingForSignal =>
        split at hi
        · next hp => exact .etx hs hp
        · cases hi
      case waitingForAsciiSum =>
        rw [asciiSumExpired, ← beginTick_eq, sendAbf_meet]; exact .abf _ (.inl hs)
      case waitingForAck =>
        rw [ackWaitExpired, ← beginTick_eq, sendAbf_meet]; exact .abf _ (.inr (.inl hs))
      case waitingForAnt =>
        rw [antExpired, ← beginTick_eq, sendAbf_meet]; exact .abf _ (.inr (.inr hs))
      case inAckTimeoutBuffer => exact .hold hs
      case waitingForMoreAnt =>
        unfold moreAntExpired
        rw [h3]
        split
        · next hv => exact .refresh hs hv
        · next hv => exact .rest hs (by simpa using hv)
      all_goals cases hi
    · exact .idle
  · exact .idle

/-- What a read of info text can do: it takes `n` bytes into the buffer, and either the message goes on
or its checksum is sent (43_steady_state.md R160). -/
theorem infoStep_effect (s : State) (h : s.infoLen ≤ s.params.infoMax) :
    ∃ n start len, n ≤ s.params.infoMax ∧ len ≤ s.params.infoMax ∧ start + n ≤ s.params.infoMax ∧
      ((infoStep s = { s with
          rxbuf := s.rxbuf.drop n
          infoBuf := Memory.writeRun s.infoBuf start (s.rxbuf.take n), infoLen := len } ∧
        (len < s.params.infoMax)) ∨
      infoStep s = infoDone { s with
          rxbuf := s.rxbuf.drop n
          infoBuf := Memory.writeRun s.infoBuf start (s.rxbuf.take n), infoLen := len }) := by
  rw [infoStep_eq]
  cases hf : s.params.infoFraming with
  | available =>
    refine ⟨min (rxCount s) s.params.infoMax, 0, min (rxCount s) s.params.infoMax, ?_, ?_, ?_, .inr ?_⟩
    · omega
    · omega
    · omega
    · simp [readInfo, hf]
  | nulTerminated =>
    obtain ⟨h1, h2, n, h3, h4, h5⟩ :=
      readUntilNul_bounds s.params.infoMax s.rxbuf s.infoBuf s.infoLen h
    refine ⟨n, s.infoLen, (readUntilNul s.params.infoMax s.rxbuf s.infoBuf s.infoLen).len,
      by omega, h2, by omega, ?_⟩
    simp only [readInfo, hf, h4, h5]
    split
    · exact .inr rfl
    · next hd =>
      refine .inl ⟨rfl, ?_⟩
      simp only [Bool.or_eq_true, decide_eq_true_eq, not_or] at hd
      omega

/-- Meeting a frame, case by case. -/
theorem meetFrame_effect {q p : I16} {s t : State}
    (h : meetFrame { seq := q, payload := p } s = .next t) :
    (s.phase = .notOpen ∧ t = unread { seq := q, payload := p } (ticked s)) ∨
    (s.phase ≠ .notOpen ∧ s.state = .waitingForInfoMessage ∧
      t = infoStep (unread { seq := q, payload := p } (ticked s))) ∨
    (s.phase ≠ .notOpen ∧ s.state ≠ .waitingForInfoMessage ∧ FrameEffect q p s t) := by
  by_cases hp : s.phase = .notOpen
  · rw [meetFrame_closed _ _ hp] at h
    cases h
    exact .inl ⟨hp, rfl⟩
  by_cases hs : s.state = .waitingForInfoMessage
  · rw [meetFrame_info _ _ hp hs] at h
    cases h
    exact .inr (.inl ⟨hp, hs, rfl⟩)
  · rw [meetFrame_open _ _ hp hs] at h
    refine .inr (.inr ⟨hp, hs, dispatch_effect ?_⟩)
    cases hd : dispatch { seq := q, payload := p } (tracked q s) with
    | none => rw [hd] at h; cases h
    | some u => rw [hd] at h; cases h; rfl

end Sys2Proof.Machine
end

