-- ==== Sys2Proof/Laws/PerInstr.lean ====
section
/-! SUPPORT. For each constructor of Instr: a well-formed term is decoded from its encoding. -/

namespace Sys2Proof.Laws.RoundTrip

open Sys2Proof

/-- Decoding the encoding gives the instruction back, if it is well-formed. -/
def Statement (i : Instr) : Prop := i.WellFormed → decode i.format (encode i) = .ok i

theorem soh (seq : I16) : Statement (.soh seq) := by
  intro _; simp [encode, decode, Instr.format, frameInstr]

theorem stx (seq : I16) : Statement (.stx seq) := by
  intro _; simp [encode, decode, Instr.format, frameInstr]

theorem etx (seq : I16) : Statement (.etx seq) := by
  intro _; simp [encode, decode, Instr.format, frameInstr]

theorem eot (seq : I16) : Statement (.eot seq) := by
  intro _; simp [encode, decode, Instr.format, frameInstr]

theorem ack (seq : I16) : Statement (.ack seq) := by
  intro _; simp [encode, decode, Instr.format, frameInstr]

theorem abf (seq : I16) : Statement (.abf seq) := by
  intro _; simp [encode, decode, Instr.format, frameInstr]

theorem ant (seq : I16) : Statement (.ant seq) := by
  intro _; simp [encode, decode, Instr.format, frameInstr]

theorem data (payload seq : I16) : Statement (.data payload seq) := by
  intro h
  simp [encode, decode, Instr.format, frameInstr, (wellFormed_data_iff payload seq).1 h]

theorem tick : Statement .tick := by
  intro _; simp [encode, decode, Instr.format, decodeHostCmd_hostWord, withoutArg]

theorem openSession : Statement .openSession := by
  intro _; simp [encode, decode, Instr.format, decodeHostCmd_hostWord, withoutArg]

theorem send (payload : I16) : Statement (.send payload) := by
  intro _; simp [encode, decode, Instr.format, decodeHostCmd_hostWord]

theorem readLast : Statement .readLast := by
  intro _; simp [encode, decode, Instr.format, decodeHostCmd_hostWord, withoutArg]

theorem isOpen : Statement .isOpen := by
  intro _; simp [encode, decode, Instr.format, decodeHostCmd_hostWord, withoutArg]

theorem readStatus : Statement .readStatus := by
  intro _; simp [encode, decode, Instr.format, decodeHostCmd_hostWord, withoutArg]

end Sys2Proof.Laws.RoundTrip
end

