-- ==== Sys2Proof/Tests/Slice0.lean ====
section
/-! SUPPORT. Tests. Expected results are those of spec/95_test_vectors.md (the section stands in each
comment) or are written out from the encodings of 30_encoding.md. The last part shows, for every
statement with hypotheses, a concrete state and operands that meet them. -/

namespace Sys2Proof.Tests

open Sys2Proof Sys2Proof.Machine

/-! ### Well-formedness: each ill-formed term is refused -/

theorem test_wf_data_soh : (Instr.data 0x0001 0).wellFormed = false := by decide
theorem test_wf_data_stx : (Instr.data 0x0002 0).wellFormed = false := by decide
theorem test_wf_data_etx : (Instr.data 0x0003 0).wellFormed = false := by decide
theorem test_wf_data_eot : (Instr.data 0x0004 0).wellFormed = false := by decide
theorem test_wf_data_ack : (Instr.data 0x0006 0).wellFormed = false := by decide
theorem test_wf_data_abf : (Instr.data 0x0015 0).wellFormed = false := by decide
theorem test_wf_data_ant : (Instr.data 0x0016 0).wellFormed = false := by decide
theorem test_wf_data_ok : (Instr.data 0x0005 0).wellFormed = true := by decide

/-! ### Decoding: words written out bit by bit from 30_encoding.md R71, R73, R85, R86 -/

theorem test_decode_soh :
    decode .frame32 0b00000000000000010000000000000000 = .ok (.soh 0) := by decide
theorem test_decode_stx :
    decode .frame32 0b00000000000000100000000000000011 = .ok (.stx 3) := by decide
theorem test_decode_etx :
    decode .frame32 0b00000000000000110000000000000010 = .ok (.etx 2) := by decide
theorem test_decode_eot :
    decode .frame32 0b00000000000001001111111111111111 = .ok (.eot 0xFFFF) := by decide
theorem test_decode_ack :
    decode .frame32 0b00000000000001100000000000001000 = .ok (.ack 8) := by decide
theorem test_decode_abf :
    decode .frame32 0b00000000000101010000000000001111 = .ok (.abf 15) := by decide
theorem test_decode_ant :
    decode .frame32 0b00000000000101100000000000010100 = .ok (.ant 20) := by decide
theorem test_decode_data :
    decode .frame32 0b00000000011001000000000000000111 = .ok (.data 100 7) := by decide
theorem test_decode_tick :
    decode .hostcmd 0b00000000000000000000000000000000 = .ok .tick := by decide
theorem test_decode_open :
    decode .hostcmd 0b00010000000000000000000000000000 = .ok .openSession := by decide
theorem test_decode_send :
    decode .hostcmd 0b00100000000000001111111111111011 = .ok (.send 0xFFFB) := by decide
theorem test_decode_readLast :
    decode .hostcmd 0b00110000000000000000000000000000 = .ok .readLast := by decide
theorem test_decode_isOpen :
    decode .hostcmd 0b01000000000000000000000000000000 = .ok .isOpen := by decide
theorem test_decode_readStatus :
    decode .hostcmd 0b01010000000000000000000000000000 = .ok .readStatus := by decide

/-- 95_test_vectors.md 3.7: the three kinds of reserved host word. -/
theorem test_decode_reserved :
    decode .hostcmd 0x60000000 = .error .reservedCmd ∧
    decode .hostcmd 0x00000001 = .error .argNotZero ∧
    decode .hostcmd 0x00010000 = .error .mustBeZero := by decide

/-- 95_test_vectors.md T1: first byte first. -/
theorem test_decodeBytes :
    decodeBytes [0xFF, 0xFE, 0x00, 0x05, 0x06] = .ok (.data 0xFFFE 5, [0x06]) := by decide

theorem test_decodeBytes_short : decodeBytes [0x00, 0x64, 0x00] = .error .tooShort := by decide

/-- 95_test_vectors.md section 2. -/
theorem test_encodeFrame : encodeFrame 0x1234 0x5678 = [0x56, 0x78, 0x12, 0x34] := by decide

theorem test_tableWord_frame : decodeTableWord 32 0x00150000 = some (.abf 0) := by decide
theorem test_tableWord_host : decodeTableWord 32 0x2000002A = some (.send 42) := by decide

/-! ### Checksums: 95_test_vectors.md section 2 -/

theorem test_checksum_max : checksum (BitVec.ofInt 16 (-29999)) = 323 := by decide
theorem test_checksum_least : checksum 0x8000 = 311 := by decide
theorem test_checksum_text : checksumText [0x48, 0x45, 0x59, 0x00] = 230 := by decide

/-! ### States: the conventions of 95_test_vectors.md -/

/-- `CFG_STD`. -/
def cfgStd : Cfg :=
  { timeout := 1000, ackTimeout := 500, ackWait := 0, abfInterval := 300, refreshInterval := 200,
    maxAbfAttempts := 3, version := 10 }

/-- The state `PHASE = p`, `STATE = st`, `SEQ = q` of 95_test_vectors.md, at clock value `now`. -/
def at_ (p : Phase) (st : EngineState) (q : I16) (now : U32) : State :=
  { State.reset with
    phase := p, state := st, seq := q, cfg := cfgStd, openCfg := cfgStd, now := now
    params := { rxDepth := 64, infoMax := 32, infoFraming := .nulTerminated } }

/-- `open(st, q)`. -/
def openIn (st : EngineState) (q : I16) (now : U32) : State := at_ .opened st q now

/-- `open(st, q)` with bytes received. -/
def withRx (bs : List Byte) (s : State) : State := { s with rxbuf := bs }

/-- With a Signal outstanding. -/
def withSent (q p e : I16) (s : State) : State :=
  { s with lastSent := { valid := true, seq := q, payload := p, expected := e } }

/-- What the tests look at: `STATE`, `PHASE`, `SEQ`, `T_MARK` and `TXLOG`. -/
def view (o : Host.Outcome State Fault Refusal) :
    Option (EngineState × Phase × I16 × U32 × List Byte) :=
  (nextState o).map (fun t => (t.state, t.phase, t.seq, t.tMark, t.txlog))

/-- The event an outcome returns. -/
def eventOf (o : Host.Outcome State Fault Refusal) : Option Result :=
  (nextState o).map State.result

/-- The fault an outcome is. -/
def faultOf (o : Host.Outcome State Fault Refusal) : Option Fault :=
  match o with
  | .next _ => none
  | .fault f => some f
  | .refused _ => none

/-! ### Frames -/

/-- P1 step 3. -/
theorem test_soh_sends_version :
    view (exec (.soh 0) (at_ .hsWaitSoh .waitingForSignal 0 10)) =
      some (.waitingForAsciiSum, .hsVersion, 2, 10, [0x00, 0x0A, 0x00, 0x01]) := by decide

/-- 43_steady_state.md R150: in a session `SOH` is data; `Checksum(1) = 49`. -/
theorem test_soh_is_data :
    view (exec (.soh 7) (openIn .okContinue 3 40)) =
      some (.waitingForAck, .opened, 9, 40, [0x00, 0x31, 0x00, 0x08]) := by decide

/-- P4 step 1. -/
theorem test_stx :
    ((nextState (exec (.stx 3) (openIn .okContinue 3 600))).map
      (fun t => (t.ackCtx, t.lastRecv.payload, t.seq, t.txlog))) =
      some (.stx, 2, 5, [0x00, 0x32, 0x00, 0x04]) := by decide

/-- P1 step 9. -/
theorem test_etx_opens :
    ((nextState (exec (.etx 2) (at_ .hsWaitEtx .waitingForSignal 3 530))).map
      (fun t => (t.state, t.phase, t.seq, t.result))) =
      some (.okContinue, .opened, 3, .event .handshakeOk) := by decide

/-- P1b: `ETX` during the hold of the handshake. -/
theorem test_etx_in_hold :
    view (exec (.etx 2) (withSent 1 10 97 (at_ .hsVersion .inAckTimeoutBuffer 3 30))) =
      some (.okContinue, .opened, 3, 30, []) := by decide

/-- 43_steady_state.md R150: `EOT` is data; `Checksum(4) = 52`. -/
theorem test_eot :
    view (exec (.eot 7) (openIn .okContinue 3 40)) =
      some (.waitingForAck, .opened, 9, 40, [0x00, 0x34, 0x00, 0x08]) := by decide

/-- P2 step 4. -/
theorem test_ack :
    view (exec (.ack 8) (openIn .waitingForAck 9 50)) =
      some (.okContinue, .opened, 9, 0, []) := by decide

/-- 3.5: a stray `ACK` is data. -/
theorem test_ack_stray :
    view (exec (.ack 1) (openIn .okContinue 3 10)) =
      some (.waitingForAck, .opened, 4, 10, [0x00, 0x36, 0x00, 0x03]) := by decide

/-- 3.5: `ABF` in the hold. -/
theorem test_abf_in_hold :
    view (exec (.abf 20) (withSent 9 42 102 (openIn .inAckTimeoutBuffer 14 80))) =
      some (.inAckTimeoutBuffer, .opened, 22, 80, [0x00, 0x16, 0x00, 0x15]) := by decide

/-- 3.4: `ABF` while waiting for `SOH` is discarded. -/
theorem test_abf_discarded :
    view (exec (.abf 4) (at_ .hsWaitSoh .waitingForSignal 0 5)) =
      some (.waitingForSignal, .hsWaitSoh, 5, 0, []) := by decide

/-- 3.5. -/
theorem test_ant :
    view (exec (.ant 3) (openIn .okContinue 3 10)) =
      some (.waitingForMoreAnt, .opened, 4, 10, []) := by decide

/-- 3.5: `ANT` where a checksum is awaited is a mismatch, and the Signal is sent again. -/
theorem test_ant_is_mismatch :
    view (exec (.ant 11) (withSent 9 42 102 (openIn .waitingForAsciiSum 11 80))) =
      some (.waitingForAsciiSum, .opened, 12, 80, [0x00, 0x2A, 0x00, 0x09]) := by decide

/-- 3.5: the checksum matches. -/
theorem test_data_confirms :
    view (exec (.data 102 12) (withSent 9 42 102 (openIn .waitingForAsciiSum 10 70))) =
      some (.inAckTimeoutBuffer, .opened, 14, 70, [0x00, 0x06, 0x00, 0x0D]) := by decide

/-- 3.1: the counter wraps. -/
theorem test_data_seq_wraps :
    view (exec (.data 100 0) (openIn .okContinue 32767 1)) =
      some (.waitingForAck, .opened, 0x8000, 1, [0x00, 0x91, 0x7F, 0xFF]) := by decide

/-! ### Host operations -/

/-- 3.5: an info message that ends in this tick. -/
theorem test_tick_info :
    ((nextState (exec .tick (withRx [0x48, 0x49, 0x00] (openIn .waitingForInfoMessage 6 620)))).map
      (fun t => (t.state, t.infoLen, Memory.text t.infoBuf 3, t.txlog))) =
      some (.waitingForAck, 3, [0x48, 0x49, 0x00], [0x00, 0x91, 0x00, 0x06]) := by decide

/-- 3.3: the elapsed time wraps. -/
theorem test_tick_wrap :
    view (exec .tick { openIn .waitingForAck 9 0x000000F4 with tMark := 0xFFFFFF00 }) =
      some (.waitingForAnt, .opened, 10, 0xF4, [0x00, 0x15, 0x00, 0x09]) := by decide

/-- T7: reopening resets the counters. -/
theorem test_open_again :
    ((nextState (exec .openSession { at_ .notOpen .connectionClosed 18 6000 with abfCount := 3 })).map
      (fun t => (t.seq, t.abfCount, t.state, t.phase, t.tMark, t.cfg))) =
      some (0, 0, .waitingForSignal, .hsWaitSoh, 6000, cfgStd) := by decide

/-- 3.4: a version that is an opcode. -/
theorem test_open_bad_config :
    faultOf (exec .openSession { State.reset with openCfg := { cfgStd with version := 6 } }) =
      some .badConfig := by decide

/-- 3.7. -/
theorem test_send_least :
    ((nextState (exec (.send 0x8000) (openIn .okContinue 3 0))).map
      (fun t => (t.lastSent, t.txlog))) =
      some ({ valid := true, seq := 3, payload := 0x8000, expected := 311 },
        [0x80, 0x00, 0x00, 0x03]) := by decide

/-- 3.7. -/
theorem test_send_opcode :
    faultOf (exec (.send 6) (openIn .okContinue 3 0)) = some .sendReservedPayload := by decide

/-- P2 step 9. -/
theorem test_readLast :
    eventOf (exec .readLast { openIn .okContinue 14 0 with
      lastRecv := { valid := true, seq := 7, payload := 100 } }) =
      some (.lastPayload (some 100)) := by decide

/-- A session is open in recovery too, and not in the handshake (10_state.md R26). -/
theorem test_isOpen :
    (eventOf (exec .isOpen (openIn .waitingForAnt 3 0)),
      eventOf (exec .isOpen (at_ .hsWaitEtx .waitingForSignal 3 0))) =
      (some (.openFlag true), some (.openFlag false)) := by decide

/-- 3.7: the closed engine at the end of P3. -/
theorem test_readStatus :
    eventOf (exec .readStatus (withSent 14 0xFFFB 98
      { at_ .notOpen .connectionClosed 18 0 with abfCount := 3 })) =
      some (.status 0x0389) := by decide

/-! ### Steps -/

/-- The first step after reset runs the word that is placed: a host operation. -/
theorem test_step_host :
    eventOf (step (State.reset.withFetchWord 32 0x50000000)) = some (.status 0x0009) := by decide

/-- The first step after reset runs the word that is placed: a frame. -/
theorem test_step_frame :
    ((nextState (step (State.reset.withFetchWord 32 0x00640007))).map
      (fun t => (t.state, t.lastRecv, t.txlog))) =
      some (.waitingForAck, { valid := true, seq := 7, payload := 100 },
        [0x00, 0x91, 0x00, 0x08]) := by decide

theorem test_reset_memory_wf : Memory.wf State.reset.infoBuf = true := by decide

/-! ### Witnesses: the hypotheses of each statement are met -/

/-- A next state that a test found is a next state. -/
theorem next_of_view {o : Host.Outcome State Fault Refusal} (h : (nextState o).isSome = true) :
    ∃ t, o = .next t := by
  cases o with
  | next t => exact ⟨t, rfl⟩
  | fault f => cases h
  | refused r => cases h

/-- The eight rows, each with a frame. -/
theorem witness_frameRow :
    FrameRow (.soh 0) 0 0x0001 ∧ FrameRow (.stx 1) 1 0x0002 ∧ FrameRow (.etx 2) 2 0x0003 ∧
    FrameRow (.eot 3) 3 0x0004 ∧ FrameRow (.ack 4) 4 0x0006 ∧ FrameRow (.abf 5) 5 0x0015 ∧
    FrameRow (.ant 0xFFFF) 0xFFFF 0x0016 ∧ FrameRow (.data 102 7) 7 102 := by
  refine ⟨?_, ?_, ?_, ?_, ?_, ?_, ?_, ?_⟩ <;> unfold FrameRow <;> decide

theorem witness_encodeThenDecode :
    (Instr.data 100 7).WellFormed ∧ (Instr.send 0x0006).WellFormed ∧ Instr.tick.WellFormed := by
  decide

theorem witness_decodeThenEncode :
    decode .frame32 0xFFFFFFFF = .ok (.data 0xFFFF 0xFFFF) ∧
    decode .hostcmd 0x2000FFFF = .ok (.send 0xFFFF) := by decide

theorem witness_frameBytes :
    (withRx [0x56, 0x78, 0x12, 0x34, 0x06] (openIn .okContinue 3 0)).rxbuf =
      encodeFrame 0x1234 0x5678 ++ [0x06] ∧
    (withRx [0x00, 0x64, 0x00] (openIn .okContinue 3 0)).rxbuf.length < 4 := by decide

/-- The three kinds of reserved word at their least values, and the legal words beside them. -/
theorem witness_reserved :
    6 ≤ (0x60000000 : U32).toNat / 2 ^ 28 ∧
    (0x00010000 : U32).toNat / 2 ^ 16 % 2 ^ 12 ≠ 0 ∧
    ((0x50000001 : U32).toNat % 2 ^ 16 ≠ 0 ∧ (0x50000001 : U32).toNat / 2 ^ 28 ≠ 2) ∧
    ¬ ((0x20000001 : U32).toNat % 2 ^ 16 ≠ 0 ∧ (0x20000001 : U32).toNat / 2 ^ 28 ≠ 2) := by decide

/-- A state whose next input is given. -/
def withInput (i : Input) (s : State) : State := { s with inbox := [i] }

theorem witness_step :
    (withInput (.host 0x2000002A 60 cfgStd) (openIn .okContinue 3 0)).inbox =
      [.host 0x2000002A 60 cfgStd] ∧
    decode .hostcmd 0x2000002A = .ok (.send 42) ∧
    (withInput (.host 0x60000000 0 cfgStd) State.reset).inbox = [.host 0x60000000 0 cfgStd] ∧
    (withInput (.rxByte 0xFF) State.reset).inbox = [.rxByte 0xFF] ∧ State.reset.inbox = [] := by
  decide

theorem witness_tickFrame :
    (openIn .okContinue 3 0).phase ≠ .notOpen ∧ (openIn .okContinue 3 0).state ≠ .waitingForInfoMessage ∧
    (withRx [0x00, 0x64, 0x00, 0x07] (openIn .okContinue 3 0)).rxbuf =
      [0x00, 0x64, 0x00, 0x07] := by decide

/-- For `ParsedFramesAreTracked`: a frame that is answered, one that is not, and one that makes the
engine send the outstanding Signal again. -/
theorem witness_tracked :
    (∃ t, exec (.data 102 7) (openIn .okContinue 3 40) = .next t) ∧
    (∃ t, exec (.ant 0xFFFF) (openIn .okContinue 3 40) = .next t) ∧
    ∃ t, exec (.ant 11) (withSent 9 42 102 (openIn .waitingForAsciiSum 11 80)) = .next t :=
  ⟨next_of_view (by decide), next_of_view (by decide), next_of_view (by decide)⟩

theorem witness_noFrame : NoFrame (withRx [0x00, 0x64, 0x00] (openIn .waitingForAck 9 539)) := by
  unfold NoFrame; decide

/-- For `OneFrameInAndOneOutPerOperation`: a frame, and text. -/
theorem witness_oneOperation :
    (∃ t, exec .tick (withRx [0x00, 0x64, 0x00, 0x07] (openIn .okContinue 3 40)) = .next t) ∧
    ∃ t, exec .tick (withRx [0x48, 0x00] (openIn .waitingForInfoMessage 3 40)) = .next t :=
  ⟨next_of_view (by decide), next_of_view (by decide)⟩

/-- The three clauses of `OpenStartsAHandshake`, at the least legal version and the opcode below. -/
theorem witness_open :
    ((at_ .notOpen .connectionClosed 0 0).phase = .notOpen ∧ classify 0x0000 = .data) ∧
    (openIn .okContinue 3 0).phase ≠ .notOpen ∧ classify 0x0001 ≠ .data := by decide

/-- The three clauses of `SendEmitsAnApplicationSignal`. -/
theorem witness_send :
    ((openIn .okContinue 3 0).phase = .opened ∧ (openIn .okContinue 3 0).state = .okContinue ∧
      classify 0x0017 = .data) ∧
    (openIn .waitingForAck 9 0).state ≠ .okContinue ∧ classify 0x0016 ≠ .data := by decide

/-- `StatusTellsWhenSendIsReady`: a ready engine, and one that is not. -/
theorem witness_status :
    (∃ t, exec .readStatus (openIn .okContinue 3 0) = .next t ∧ t.result = .status 0x0041) ∧
    (∃ t, exec .readStatus State.reset = .next t ∧ t.result = .status 0x0009) ∧
    0x0041 % 2 ^ 7 = 0x41 ∧ classify 0x0000 = .data :=
  ⟨⟨_, rfl, by decide⟩, ⟨_, rfl, by decide⟩, by decide, by decide⟩

/-- The states of the statements about frames, with `FrameRow` as in `witness_frameRow`. -/
theorem witness_frameStates :
    (openIn .okContinue 3 0).state = .okContinue ∧
    (at_ .hsWaitSoh .waitingForSignal 0 0).phase = .hsWaitSoh ∧
    (at_ .hsWaitEtx .waitingForSignal 0 0).phase = .hsWaitEtx ∧
    (openIn .waitingForAck 3 0).state = .waitingForAck ∧
    (withSent 9 42 102 (openIn .waitingForAsciiSum 10 0)).lastSent.expected = 102 ∧
    (withSent 9 42 102 (openIn .inAckTimeoutBuffer 10 0)).state = .inAckTimeoutBuffer ∧
    (withSent 9 42 102 (openIn .waitingForMoreAnt 10 0)).lastSent.valid = true ∧
    (openIn .waitingForRepMessage 10 0).lastSent.valid = false ∧
    (at_ .opened .waitingForSignal 0 0).phase = .opened ∧
    (at_ .hsVersion .connectionClosed 0 0).phase ≠ .notOpen := by decide

/-- The deadline, on both sides of its boundary and past the wrap (3.3). -/
theorem witness_deadline :
    ¬ Expired 1999 1000 1000 ∧ Expired 2000 1000 1000 ∧ ¬ Expired 0xF3 0xFFFFFF00 500 ∧
    Expired 0xF4 0xFFFFFF00 500 := by
  unfold Expired; decide

/-- Each timed state with its interval. -/
theorem witness_timed :
    TimedBy (at_ .hsWaitEtx .waitingForSignal 3 0) 1000 ∧
    TimedBy (openIn .waitingForAsciiSum 3 0) 1000 ∧ TimedBy (openIn .waitingForAck 3 0) 500 ∧
    TimedBy (openIn .inAckTimeoutBuffer 3 0) 500 ∧ TimedBy (openIn .waitingForAnt 3 0) 300 ∧
    TimedBy (openIn .waitingForMoreAnt 3 0) 200 := by
  refine ⟨?_, ?_, ?_, ?_, ?_, ?_⟩ <;> unfold TimedBy <;> decide

/-- States without a timer, and the info wait with nothing received. -/
theorem witness_untimed :
    NoFrame (openIn .okContinue 3 0) ∧ NoFrame (openIn .waitingForRepMessage 3 0) ∧
    NoFrame (at_ .hsWaitSoh .waitingForSignal 3 0) ∧
    (openIn .waitingForInfoMessage 3 0).rxbuf = [] := by
  unfold NoFrame; decide

/-- Every wait without a frame, with and without a Signal outstanding. -/
theorem witness_waits :
    NoFrame (openIn .waitingForAsciiSum 3 1000) ∧ NoFrame (openIn .waitingForAck 3 500) ∧
    NoFrame (openIn .waitingForAnt 3 300) ∧ NoFrame (openIn .inAckTimeoutBuffer 3 500) ∧
    NoFrame (at_ .hsWaitEtx .waitingForSignal 3 1000) ∧
    NoFrame (openIn .waitingForMoreAnt 3 200) ∧
    (withSent 9 42 102 (openIn .waitingForMoreAnt 3 200)).lastSent.valid = true ∧
    Expired 1000 0 1000 ∧ Expired 500 0 500 ∧ Expired 300 0 300 ∧ Expired 200 0 200 := by
  unfold NoFrame Expired; decide

/-- The info wait with `n` bytes read already, and other bytes received. -/
def infoIn (n : Nat) (bs : List Byte) : State :=
  { openIn .waitingForInfoMessage 6 0 with infoLen := n, rxbuf := bs }

/-- The three clauses of `NulTerminatedText`: the terminator as the last byte that fits, the buffer
full without one, and one byte short of full. -/
theorem witness_nulText :
    ((infoIn 30 [0x48, 0x00, 0x05]).rxbuf = [0x48] ++ 0 :: [0x05] ∧ (0 : Byte) ∉ [(0x48 : Byte)] ∧
      (infoIn 30 [0x48, 0x00, 0x05]).infoLen + 1 < (infoIn 30 []).params.infoMax) ∧
    ((infoIn 30 [0x48, 0x49, 0x00]).rxbuf = [0x48, 0x49] ++ [0x00] ∧
      (infoIn 30 [0x48, 0x49, 0x00]).infoLen + 2 = (infoIn 30 []).params.infoMax) ∧
    ((infoIn 30 [0x48]).rxbuf = [0x48] ∧
      (infoIn 30 [0x48]).infoLen + 1 < (infoIn 30 []).params.infoMax) ∧
    (infoIn 30 []).params.infoFraming = .nulTerminated := by decide

theorem witness_availableText :
    ({ infoIn 0 [0x48, 0x49] with
        params := { rxDepth := 64, infoMax := 1, infoFraming := .available } }).params.infoFraming =
      .available ∧ (infoIn 0 [0x48, 0x49]).rxbuf ≠ [] := by decide

theorem witness_memory_wf : Memory.wf (Memory.write (Memory.write [] 31 0xFF) 0 0x48) = true := by
  decide

/-- The invariant where a session is open. -/
theorem witness_inv_open : Inv (openIn .okContinue 3 0) := by constructor <;> decide

/-- The invariant with a Signal outstanding, at the last attempt. -/
theorem witness_inv_sent :
    Inv { withSent 14 0xFFFB 98 (openIn .waitingForAnt 18 2900) with abfCount := 3, tMark := 2600 } := by
  constructor <;> decide

/-- The invariant in the hold of the handshake. -/
theorem witness_inv_hold : Inv (withSent 1 10 97 (at_ .hsVersion .inAckTimeoutBuffer 3 30)) := by
  constructor <;> decide

/-- The invariant in the info wait, one byte short of full. -/
theorem witness_inv_info :
    Inv { infoIn 31 [0x00] with infoBuf := [(0, 0x48), (30, 0x49)] } := by constructor <;> decide

/-- The invariant where the engine is closed. -/
theorem witness_inv_closed : Inv (withSent 14 0xFFFB 98 (at_ .notOpen .connectionClosed 18 0)) := by
  constructor <;> decide

/-- `StepKeepsTheInvariant` from a state with a tick to come. -/
theorem witness_step_inv :
    Inv (withInput (.host 0 2900 cfgStd) (openIn .okContinue 3 0)) ∧
    ∃ t, step (withInput (.host 0 2900 cfgStd) (openIn .okContinue 3 0)) = .next t :=
  ⟨by constructor <;> decide, next_of_view (by decide)⟩

/-- `OnlyTheHostCanFault`: the duty kept, and not kept. -/
theorem witness_duty :
    HostDuty (.send 42) (openIn .okContinue 3 0) ∧ ¬ HostDuty (.send 6) (openIn .okContinue 3 0) ∧
    HostDuty .openSession (at_ .notOpen .connectionClosed 0 0) ∧
    ¬ HostDuty .openSession (openIn .okContinue 3 0) := by
  unfold HostDuty; decide

/-- `ClosingReturnsItsEvent`: P3 step 8. -/
theorem witness_closing :
    ∃ t, exec .tick { withSent 14 0xFFFB 98 (openIn .waitingForAnt 18 2900) with
      abfCount := 3, tMark := 2600 } = .next t ∧ t.phase = .notOpen :=
  ⟨_, rfl, by decide⟩

/-- `OpeningReturnsHandshakeOk`: P1 step 9, by the row and by the tick. -/
theorem witness_opening :
    (∃ t, exec (.etx 2) (at_ .hsWaitEtx .waitingForSignal 3 530) = .next t ∧ t.phase = .opened) ∧
    (∃ t, exec .tick (withRx [0x00, 0x03, 0x00, 0x02] (at_ .hsWaitEtx .waitingForSignal 3 530)) =
      .next t ∧ t.phase = .opened) ∧ (Instr.etx 2).WellFormed :=
  ⟨⟨_, rfl, by decide⟩, ⟨_, rfl, by decide⟩, by decide⟩

/-- `PhaseFollowsTheHandshake` and `OnlyOpenWritesCfg`: an `OPEN` that completes. -/
theorem witness_opened :
    Inv (at_ .notOpen .connectionClosed 0 0) ∧
    ∃ t, exec .openSession (at_ .notOpen .connectionClosed 0 0) = .next t :=
  ⟨by constructor <;> decide, next_of_view (by decide)⟩

/-- `OnlyDataReplacesLastReceived`: a data frame. -/
theorem witness_received :
    ∃ t, exec (.data 102 7) (openIn .okContinue 3 40) = .next t ∧
      t.lastRecv ≠ (openIn .okContinue 3 40).lastRecv :=
  ⟨_, rfl, by decide⟩

/-- `AckWaitHasNoEffect`: an operation that completes, and one that faults. -/
theorem witness_ackWait :
    (∃ t, exec (.send 42) (openIn .okContinue 3 0) = .next t) ∧
    exec (.send 6) (openIn .okContinue 3 0) = .fault .sendReservedPayload :=
  ⟨next_of_view (by decide), rfl⟩

/-- `SequenceNumbersDecideNothing`: two states that differ in the counter, in both records and in the
number of the frame that was sent. -/
theorem witness_sameButSeq :
    SameButSeq
      { withSent 2 42 102 (openIn .waitingForAsciiSum 3 0) with
        txlog := encodeFrame 2 42, lastRecv := { valid := true, seq := 1, payload := 7 } }
      { withSent 5 42 102 (openIn .waitingForAsciiSum 0x8000 0) with
        txlog := encodeFrame 5 42, lastRecv := { valid := true, seq := 9, payload := 7 } } := by
  constructor <;> rfl

/-- `SilentPeerClosesAfterTheBound`: P3, with both ends of the range of `k`. -/
theorem witness_silentPeer :
    (withSent 14 0xFFFB 98 (openIn .waitingForAsciiSum 15 1000)).state = .waitingForAsciiSum ∧
    (withSent 14 0xFFFB 98 (openIn .waitingForAsciiSum 15 1000)).rxbuf.length < 4 ∧
    (openIn .waitingForAsciiSum 15 1000).abfCount = 0 ∧
    (0 < 1 ∧ 1 ≤ cfgStd.maxAbfAttempts.toNat) ∧ 3 ≤ cfgStd.maxAbfAttempts.toNat := by decide

/-- P3 as a whole by its ticks: three `ABF` frames, and the close. -/
theorem test_silent_peer :
    view (runTicks (clockFrom 2000 300 4)
      { withSent 14 0xFFFB 98 (openIn .waitingForAsciiSum 15 1000) with tMark := 1000 }) =
      some (.connectionClosed, .notOpen, 18, 2600,
        [0x00, 0x15, 0x00, 0x0F, 0x00, 0x15, 0x00, 0x10, 0x00, 0x15, 0x00, 0x11]) := by decide

end Sys2Proof.Tests
end

