-- ==== Sys2Proof/Proofs/ResetValues.lean ====
section
/-! PROOF. The state at power-on reset (10_state.md R38). -/

namespace Sys2Proof.Machine

/-- Settles O41: each line of the table of 10_state.md R38 that gives a value is the field of
`State.reset` as it is written. -/
theorem resetValues : Obligations.ResetValues :=
  ⟨rfl, rfl, rfl, rfl, rfl, rfl, rfl, rfl, rfl, rfl, rfl⟩

end Sys2Proof.Machine
end

