-- ==== Sys2Proof/Proofs/Codec.lean ====
section
/-! PROOF. The codec (40_codec.md): the bytes of `Encode` and `Decode` as numbers (R100, R101), the
decimal digits (R103), and the checksum of a text (R105). -/

namespace Sys2Proof.Machine

open Sys2Proof

/-! ### The bytes of a field -/

theorem toNat_highByte (v : I16) : (v.extractLsb' 8 8).toNat = v.toNat / 256 := by
  have hv := v.isLt
  rw [BitVec.extractLsb'_toNat, Nat.shiftRight_eq_div_pow]
  omega

theorem toNat_lowByte (v : I16) : (v.extractLsb' 0 8).toNat = v.toNat % 256 := by
  rw [BitVec.extractLsb'_toNat, Nat.shiftRight_zero]

theorem toNat_append_byte (hi lo : Byte) : (hi ++ lo).toNat = hi.toNat * 256 + lo.toNat := by
  rw [BitVec.toNat_append, ← Nat.shiftLeft_add_eq_or_of_lt lo.isLt, Nat.shiftLeft_eq]

/-- Settles O5: each field of a frame gives its high byte, then its low byte. -/
theorem encodeIsBigEndian : Obligations.EncodeIsBigEndian := by
  intro q p
  simp only [encodeFrame, List.map_cons, List.map_nil, toNat_highByte, toNat_lowByte]

/-! ### `Decode` and its precondition -/

theorem decodeRx_of_four {s : State} {b0 b1 b2 b3 : Byte} {rest : List Byte}
    (h : s.rxbuf = b0 :: b1 :: b2 :: b3 :: rest) :
    decodeRx s = .ok (frameOfBytes b0 b1 b2 b3, { s with rxbuf := rest }) := by
  simp only [decodeRx, h]

theorem decodeRx_of_short {s : State} (h : s.rxbuf.length < 4) :
    decodeRx s = .error .framingError := by
  unfold decodeRx
  split
  · next hb => rw [hb] at h; simp only [List.length_cons] at h; omega
  · rfl

theorem meetFrame_ne_framingError (f : Frame) (s : State) :
    meetFrame f s ≠ .fault .framingError := by
  rcases meetFrame_cases f s with ⟨t, h⟩ | h <;> simp [h]

/-- A tick decodes only where four bytes are there, so it never meets the precondition's fault. -/
theorem execTick_ne_framingError (s : State) : exec .tick s ≠ .fault .framingError := by
  rcases execTick_cases s with ⟨-, h⟩ | ⟨-, -, -, h⟩ | ⟨-, -, -, h⟩ |
    ⟨-, -, b0, b1, b2, b3, rest, -, h⟩ | ⟨-, h⟩
  case inr.inr.inr.inl => rw [h]; exact meetFrame_ne_framingError _ _
  all_goals simp [h]

theorem execOpenSession_ne_framingError (s : State) :
    execOpenSession s ≠ .fault .framingError := by
  unfold execOpenSession
  split_ifs <;> simp [hostFault]

theorem execSend_ne_framingError (p : I16) (s : State) : execSend p s ≠ .fault .framingError := by
  unfold execSend
  split_ifs <;> simp [hostFault]

/-- No operation reaches `FramingError` (40_codec.md R101). -/
theorem exec_ne_framingError (i : Instr) (s : State) : exec i s ≠ .fault .framingError := by
  cases i
  case tick => exact execTick_ne_framingError s
  case openSession => exact execOpenSession_ne_framingError s
  case send p => exact execSend_ne_framingError p s
  case readLast | isOpen | readStatus => exact nofun
  all_goals exact meetFrame_ne_framingError _ s

/-- Settles O7: the two fields are the appended bytes, a short buffer has no case of its own, and the
one operation that decodes does so behind the gate of four bytes. -/
theorem decodeReadsBigEndian : Obligations.DecodeReadsBigEndian := by
  refine ⟨fun s b0 b1 b2 b3 rest h => ?_, fun s h => decodeRx_of_short h,
    fun s i => exec_ne_framingError i s⟩
  exact ⟨_, decodeRx_of_four h, toNat_append_byte b0 b1, toNat_append_byte b2 b3⟩

/-! ### The decimal digits -/

theorem digits_lt_ten (k n : Nat) : ∀ d ∈ digits k n, d < 10 := by
  fun_induction digits k n with
  | case1 => simp
  | case2 k n h => simpa using h
  | case3 k n h ih =>
    intro d hd
    rcases List.mem_append.1 hd with hd | hd
    · exact ih d hd
    · rw [List.mem_singleton.1 hd]; omega

theorem digits_succ_ne_nil (k n : Nat) : digits (k + 1) n ≠ [] := by
  unfold digits
  split_ifs <;> simp

/-- Read in base 10, the digits of a number that fits are that number. -/
theorem foldl_digits {k n : Nat} (h : n < 10 ^ k) :
    (digits k n).foldl (fun a d => 10 * a + d) 0 = n := by
  fun_induction digits k n with
  | case1 n => exact (Nat.lt_one_iff.1 h).symm
  | case2 k n hn => simp
  | case3 k n hn ih =>
    have hk : n / 10 < 10 ^ k := by rw [Nat.pow_succ] at h; omega
    rw [List.foldl_append, ih hk]
    simp only [List.foldl_cons, List.foldl_nil]
    omega

/-- Of the numbers that fit only 0 has 0 as its first digit: no leading zero. -/
theorem eq_zero_of_head?_digits {k n : Nat} (h : n < 10 ^ k)
    (h0 : (digits k n).head? = some 0) : n = 0 := by
  fun_induction digits k n with
  | case1 n => cases h0
  | case2 k n hn => simpa using h0
  | case3 k n hn ih =>
    obtain _ | k := k
    · omega
    · rw [List.head?_append_of_ne_nil _ (digits_succ_ne_nil k _)] at h0
      have : n / 10 = 0 := ih (by rw [Nat.pow_succ] at h; omega) h0
      omega

theorem magnitude_lt (v : I16) : magnitude v < 10 ^ 5 := by
  have hlo := v.le_toInt
  have hhi := v.toInt_lt
  unfold magnitude
  omega

/-- Settles O11: the digits are those that the model computes for `|v|`, which fits in five. -/
theorem decimalStringIsTheDecimalForm : Obligations.DecimalStringIsTheDecimalForm := by
  intro v
  refine ⟨digits 5 (magnitude v), rfl, digits_lt_ten 5 _, foldl_digits (magnitude_lt v),
    digits_succ_ne_nil 4 _, fun h0 => ?_⟩
  rw [eq_zero_of_head?_digits (magnitude_lt v) h0]
  rfl

/-! ### The checksum of a text -/

/-- Settles O14: the terminator adds 0, and a 16-bit word of a number reads as the number's balanced
remainder. -/
theorem checksumTextWraps : Obligations.ChecksumTextWraps := by
  intro t
  rw [checksumText, textTerm, Nat.add_zero, BitVec.toInt_ofNat']

end Sys2Proof.Machine
end

