-- ==== Sys2Proof/Proofs/EngineCore.lean ====
section
/-! PROOF. The engine core (41_engine_core.md): the deadline test (R116), `SEND` (R132), the three reads
(R133 to R135), and the reserved host words (R136). -/

namespace Sys2Proof.Machine

open Sys2Proof

/-! ### The deadline test -/

/-- Settles O22: the test is `Expired` on the numbers, and no difference is below 0. -/
theorem elapsedComparesTheWrappedDifference : Obligations.ElapsedComparesTheWrappedDifference :=
  fun now t interval =>
    ⟨elapsed_iff_expired now t interval, (elapsed_iff_expired now t 0).2 (Nat.zero_le _)⟩

/-! ### `SEND` -/

theorem exec_send_notReady {s : State} {p : I16} (h : s.phase ≠ .opened ∨ s.state ≠ .okContinue) :
    exec (.send p) s = .fault .sendNotReady :=
  if_pos h

/-- In a session between exchanges `SEND` has one check left, on the payload. -/
theorem exec_send_ready {s : State} (p : I16) (hp : s.phase = .opened) (hs : s.state = .okContinue) :
    exec (.send p) s =
      if classify p ≠ .data then hostFault .sendReservedPayload
      else .next { sendApp p s with result := .nothing } :=
  if_neg (by simp [hp, hs])

/-- Settles O24: the first check fails, or it passes and the class of the payload decides. -/
theorem sendEmitsAnApplicationSignal : Obligations.SendEmitsAnApplicationSignal := by
  intro s p
  refine ⟨fun hp hs hd => ?_, exec_send_notReady, fun hp hs hd => ?_⟩
  · rw [exec_send_ready p hp hs, if_neg (not_not.2 hd), sendApp_eq]
  · rw [exec_send_ready p hp hs, if_pos hd, hostFault]

/-! ### The three reads -/

/-- Two fields side by side, as a number. -/
theorem toNat_append_fields {m n : Nat} (hi : BitVec m) (lo : BitVec n) :
    (hi ++ lo).toNat = hi.toNat * 2 ^ n + lo.toNat := by
  rw [BitVec.toNat_append, ← Nat.shiftLeft_add_eq_or_of_lt lo.isLt, Nat.shiftLeft_eq]

/-- The status word by its four fields (41_engine_core.md R135). -/
theorem toNat_statusWord (s : State) :
    (statusWord s).toNat = s.abfCount.toNat * 2 ^ 8 + (if s.lastSent.valid then 2 ^ 7 else 0) +
      s.phase.code.toNat * 2 ^ 4 + s.state.code.toNat := by
  simp only [statusWord, toNat_append_fields, BitVec.toNat_ofBool]
  cases s.lastSent.valid <;> simp <;> omega

/-- Settles O25: each read leaves the state but for what it returns, and the status word is the sum
of its fields. -/
theorem readsReturnAndWriteNothing : Obligations.ReadsReturnAndWriteNothing :=
  fun s => ⟨rfl, rfl, statusWord s, rfl, toNat_statusWord s⟩

/-! ### The reserved host words -/

/-- The fields of a host word as numbers (30_encoding.md R85). -/
theorem toNat_hostFields (w : U32) :
    (w.extractLsb' 28 4).toNat = w.toNat / 2 ^ 28 ∧
      (w.extractLsb' 16 12).toNat = w.toNat / 2 ^ 16 % 2 ^ 12 ∧
      (w.extractLsb' 0 16).toNat = w.toNat % 2 ^ 16 := by
  have hw := w.isLt
  simp only [BitVec.extractLsb'_toNat, Nat.shiftRight_eq_div_pow, Nat.pow_zero, Nat.div_one]
  exact ⟨Nat.mod_eq_of_lt (by omega), trivial, trivial⟩

theorem withoutArg_error_iff (a : I16) (i : Instr) :
    (∃ e, withoutArg a i = .error e) ↔ a ≠ 0 := by
  unfold withoutArg
  split_ifs with h
  · exact ⟨nofun, fun ha => absurd h ha⟩
  · exact ⟨fun _ => h, fun _ => ⟨_, rfl⟩⟩

/-- Which host words do not decode, by their fields: `CMD`, the bits 27:16 and `ARG`. -/
theorem decodeHostCmd_error_iff_fields (w : U32) :
    (∃ e, decodeHostCmd w = .error e) ↔
      6 ≤ (w.extractLsb' 28 4).toNat ∨ w.extractLsb' 16 12 ≠ 0 ∨
        (w.extractLsb' 0 16 ≠ 0 ∧ (w.extractLsb' 28 4).toNat ≠ 2) := by
  unfold decodeHostCmd
  generalize (w.extractLsb' 28 4).toNat = cmd
  generalize w.extractLsb' 0 16 = arg
  by_cases hz : w.extractLsb' 16 12 = 0
  · rw [if_neg (not_not.2 hz)]
    match cmd with
    | 0 | 1 | 3 | 4 | 5 => simp [withoutArg_error_iff, hz]
    | 2 => simp [hz]
    | n + 6 => simp
  · rw [if_pos hz]
    exact ⟨fun _ => .inr (.inl hz), fun _ => ⟨_, rfl⟩⟩

/-- Which host words do not decode, by the number of the word (41_engine_core.md R136). -/
theorem decodeHostCmd_error_iff (w : U32) :
    (∃ e, decodeHostCmd w = .error e) ↔
      6 ≤ w.toNat / 2 ^ 28 ∨ w.toNat / 2 ^ 16 % 2 ^ 12 ≠ 0 ∨
        (w.toNat % 2 ^ 16 ≠ 0 ∧ w.toNat / 2 ^ 28 ≠ 2) := by
  obtain ⟨hcmd, hzero, harg⟩ := toNat_hostFields w
  rw [decodeHostCmd_error_iff_fields, BitVec.toNat_ne, BitVec.toNat_ne, hcmd, hzero, harg]
  rfl

/-- A host word that does not decode is the fault at once, whatever the state. -/
theorem step_of_decodeHostCmd_error {s : State} {w now : U32} {cfg : Cfg} {rest : List Input}
    {e : DecodeError} (hi : s.inbox = .host w now cfg :: rest) (he : decodeHostCmd w = .error e) :
    step s = .fault .reservedCommand := by
  simp only [step, fetch, hi, he, hostFault]

/-- Settles O8: the words are those that the decoder rejects, and the step faults on the rejection. -/
theorem reservedHostWordsFault : Obligations.ReservedHostWordsFault := by
  refine ⟨decodeHostCmd_error_iff, fun s w now cfg rest hi hw => ?_⟩
  obtain ⟨e, he⟩ := (decodeHostCmd_error_iff w).2 hw
  exact step_of_decodeHostCmd_error hi he

end Sys2Proof.Machine
end

