-- ==== Sys2Proof/Proofs/Handshake.lean ====
section
/-! PROOF. The open handshake (42_handshake.md): `OPEN` (R140), the frames of its two waits (R141, R144),
and the ticks without a frame: those that find nothing due (R142, 41_engine_core.md R127) and those
that end the `ETX` wait (R145), the hold (43_steady_state.md R159) and the wait for more `ANT`
(44_recovery.md R178). -/

namespace Sys2Proof.Machine

open Sys2Proof

/-! ### `OPEN` -/

theorem exec_openSession_active {s : State} (h : s.phase ≠ .notOpen) :
    exec .openSession s = .fault .openWhileActive :=
  if_pos h

/-- With no session `OPEN` has one check left, on the version. -/
theorem exec_openSession_closed {s : State} (h : s.phase = .notOpen) :
    exec .openSession s =
      if classify s.openCfg.version ≠ .data then hostFault .badConfig
      else .next (startHandshake s) :=
  if_neg (not_not.2 h)

/-- Settles O23: the phase check fails, or it passes and the class of the version decides. -/
theorem openStartsAHandshake : Obligations.OpenStartsAHandshake := by
  intro s
  refine ⟨fun hp hv => ?_, exec_openSession_active, fun hp hv => ?_⟩
  · rw [exec_openSession_closed hp, if_neg (not_not.2 hv), startHandshake]
  · rw [exec_openSession_closed hp, if_pos hv, hostFault]

/-! ### Frames in the two waits -/

/-- In an open session or handshake that awaits no text, a frame row leaves what the dispatch of its
frame gives in the tracked state. -/
theorem exec_frameRow_of_dispatch {i : Instr} {q p : I16} {s t : State} (hi : FrameRow i q p)
    (hp : s.phase ≠ .notOpen) (hs : s.state ≠ .waitingForInfoMessage)
    (hd : dispatch { seq := q, payload := p } (tracked q s) = some t) :
    exec i s = .next t := by
  rw [exec_frameRow hi, meetFrame_open _ _ hp hs, hd, ruled]

theorem dispatch_sohWait {f : Frame} {s : State} (hp : s.phase = .hsWaitSoh)
    (hs : s.state = .waitingForSignal) : dispatch f s = some (sohWaitFrame f s) := by
  simp [dispatch, dispatchOutsideHold, hs, hp]

theorem dispatch_etxWait {f : Frame} {s : State} (hp : s.phase = .hsWaitEtx)
    (hs : s.state = .waitingForSignal) : dispatch f s = some (etxWaitFrame f s) := by
  simp [dispatch, dispatchOutsideHold, hs, hp]

theorem sohWaitFrame_soh (q : I16) (s : State) :
    sohWaitFrame { seq := q, payload := 0x0001 } (tracked q s) = versionSent q s :=
  if_pos rfl

theorem sohWaitFrame_other {f : Frame} (h : f.payload ≠ 0x0001) (s : State) :
    sohWaitFrame f s = s :=
  if_neg h

theorem etxWaitFrame_etx (q : I16) (s : State) :
    etxWaitFrame { seq := q, payload := 0x0003 } (tracked q s) = sessionOpened q s :=
  if_pos rfl

theorem etxWaitFrame_other {f : Frame} (h : f.payload ≠ 0x0003) (s : State) :
    etxWaitFrame f s = closedAfter (s.conds ++ [.handshakeRejected]) s :=
  (if_neg h).trans (enterClosed_meet _ s)

/-- Settles O28: the row runs the rule of the `SOH` wait, which asks only whether the payload is
`SOH`. -/
theorem sohWaitFrames : Obligations.SohWaitFrames := by
  intro s i q p hi hp hs
  have hrow : exec i s = .next (sohWaitFrame { seq := q, payload := p } (tracked q s)) :=
    exec_frameRow_of_dispatch hi (by simp [hp]) (by simp [hs]) (dispatch_sohWait hp hs)
  rw [hrow]
  refine ⟨?_, fun h => ?_⟩
  · rintro rfl
    rw [sohWaitFrame_soh]
  · rw [sohWaitFrame_other h]

/-- Settles O29: the row runs the rule of the `ETX` wait, which opens on `ETX` and closes on any other
payload. -/
theorem etxWaitFrames : Obligations.EtxWaitFrames := by
  intro s i q p hi hp hs
  have hrow : exec i s = .next (etxWaitFrame { seq := q, payload := p } (tracked q s)) :=
    exec_frameRow_of_dispatch hi (by simp [hp]) (by simp [hs]) (dispatch_etxWait hp hs)
  rw [hrow]
  refine ⟨?_, fun h => ?_⟩
  · rintro rfl
    rw [etxWaitFrame_etx]
  · rw [etxWaitFrame_other h]
    rfl

/-! ### Ticks without a frame -/

/-- A tick without a frame runs the timer step and nothing else (41_engine_core.md R111). -/
theorem exec_tick_noFrame {s : State} (h : NoFrame s) :
    exec .tick s = .next (timerStep (ticked s)) := by
  obtain ⟨hp, hs, hr⟩ := h
  simp [exec, execTick, hp, hs, rxCount, Nat.not_le.2 hr, beginTick_eq]

/-- The info wait reads nothing from an empty buffer (43_steady_state.md R161). -/
theorem exec_tick_noText {s : State} (hp : s.phase ≠ .notOpen)
    (hs : s.state = .waitingForInfoMessage) (hr : s.rxbuf = []) :
    exec .tick s = .next (ticked s) := by
  simp [exec, execTick, hp, hs, rxCount, hr, beginTick_eq]

/-- The timer table (41_engine_core.md R127) has the intervals of `TimedBy`. -/
theorem timerInterval_of_timedBy {s : State} {interval : U32} (h : TimedBy s interval) :
    timerInterval s = some interval := by
  rcases h with ⟨hs, hp, rfl⟩ | ⟨hs, rfl⟩ | ⟨hs, rfl⟩ | ⟨hs, rfl⟩ | ⟨hs, rfl⟩ | ⟨hs, rfl⟩
  · simp [timerInterval, hs, hp]
  all_goals simp [timerInterval, hs]

/-- The states that wait without a timer: between exchanges, for a repeated message, and for `SOH`. -/
theorem timerInterval_untimed {s : State} (h : s.state = .okContinue ∨
    s.state = .waitingForRepMessage ∨ (s.state = .waitingForSignal ∧ s.phase = .hsWaitSoh)) :
    timerInterval s = none := by
  rcases h with hs | hs | ⟨hs, hp⟩
  · simp [timerInterval, hs]
  · simp [timerInterval, hs]
  · simp [timerInterval, hs, hp]

theorem timerStep_of_none {s : State} (h : timerInterval s = none) : timerStep s = s := by
  rw [timerStep, h]

/-- The timer step of a timed state is its deadline test (41_engine_core.md R116). -/
theorem timerStep_of_timedBy {s : State} {interval : U32} (h : TimedBy s interval) :
    timerStep s = if elapsed s.now s.tMark interval then timerExpired s else s := by
  rw [timerStep, timerInterval_of_timedBy h]

theorem timerStep_before_deadline {s : State} {interval : U32} (h : TimedBy s interval)
    (he : ¬ Expired s.now s.tMark interval) : timerStep s = s := by
  rw [timerStep_of_timedBy h, if_neg (mt (elapsed_iff_expired _ _ _).1 he)]

theorem timerStep_expired {s : State} {interval : U32} (h : TimedBy s interval)
    (he : Expired s.now s.tMark interval) : timerStep s = timerExpired s := by
  rw [timerStep_of_timedBy h, if_pos ((elapsed_iff_expired _ _ _).2 he)]

theorem exec_tick_untimed {s : State} (hn : NoFrame s) (h : timerInterval s = none) :
    exec .tick s = .next (ticked s) := by
  rw [exec_tick_noFrame hn, timerStep_of_none (s := ticked s) h]

theorem exec_tick_before_deadline {s : State} {interval : U32} (hn : NoFrame s)
    (ht : TimedBy s interval) (he : ¬ Expired s.now s.tMark interval) :
    exec .tick s = .next (ticked s) := by
  rw [exec_tick_noFrame hn, timerStep_before_deadline (s := ticked s) ht he]

theorem exec_tick_expired {s : State} {interval : U32} (hn : NoFrame s)
    (ht : TimedBy s interval) (he : Expired s.now s.tMark interval) :
    exec .tick s = .next (timerExpired (ticked s)) := by
  rw [exec_tick_noFrame hn, timerStep_expired (s := ticked s) ht he]

/-- Settles O35: no interval is tested, or the test of the state's interval fails, or there is no text
to read. -/
theorem tickBeforeAnyDeadlineDoesNothing : Obligations.TickBeforeAnyDeadlineDoesNothing := by
  refine ⟨fun s hn h => ?_, fun s => exec_tick_noText⟩
  rcases h with hs | hs | hs | ⟨interval, ht, he⟩
  · exact exec_tick_untimed hn (timerInterval_untimed (.inl hs))
  · exact exec_tick_untimed hn (timerInterval_untimed (.inr (.inl hs)))
  · exact exec_tick_untimed hn (timerInterval_untimed (.inr (.inr hs)))
  · exact exec_tick_before_deadline hn ht he

/-! ### The rules on expiry -/

theorem timerExpired_etxWait {s : State} (hs : s.state = .waitingForSignal) :
    timerExpired s = closedAfter (s.conds ++ [.handshakeTimeout]) s := by
  simp only [timerExpired, hs, etxWaitExpired, enterClosed_meet]

theorem timerExpired_hold {s : State} (hs : s.state = .inAckTimeoutBuffer) :
    timerExpired s = holdOver s := by
  simp only [timerExpired, hs, holdExpired, endHold_eq]

theorem timerExpired_moreAnt_of_sent {s : State} (hs : s.state = .waitingForMoreAnt)
    (hv : s.lastSent.valid = true) : timerExpired s = resend (meet .refreshTimeout s) := by
  simp only [timerExpired, hs, moreAntExpired, hv, if_true]

theorem timerExpired_moreAnt_of_not_sent {s : State} (hs : s.state = .waitingForMoreAnt)
    (hv : s.lastSent.valid = false) :
    timerExpired s = waitIn .waitingForRepMessage (meet .refreshTimeout s) := by
  simp [timerExpired, hs, moreAntExpired, hv]

/-- In a tick the condition that resends the Signal is the first one met. -/
theorem resend_meet_ticked (c : Condition) (s : State) :
    resend (meet c (ticked s)) = signalResent c (ticked s) :=
  rfl

/-- Settles O37: the interval of each wait is the one that the table times it by, and its rule on
expiry is the state named; in the wait for more `ANT` the outstanding Signal decides. -/
theorem otherExpiredWaits : Obligations.OtherExpiredWaits := by
  intro s hn
  refine ⟨fun hs hp he => ?_, fun hs he => ?_, fun hs he => ?_⟩
  · rw [exec_tick_expired hn (.inl ⟨hs, hp, rfl⟩) he, timerExpired_etxWait (s := ticked s) hs]
    rfl
  · rw [exec_tick_expired hn (.inr (.inr (.inr (.inl ⟨hs, rfl⟩)))) he, timerExpired_hold (s := ticked s) hs]
  · have htick : exec .tick s = .next (timerExpired (ticked s)) :=
      exec_tick_expired hn (.inr (.inr (.inr (.inr (.inr ⟨hs, rfl⟩))))) he
    refine ⟨fun hv => ?_, fun hv => ?_⟩
    · rw [htick, timerExpired_moreAnt_of_sent (s := ticked s) hs hv, resend_meet_ticked]
    · rw [htick, timerExpired_moreAnt_of_not_sent (s := ticked s) hs hv]
      rfl

end Sys2Proof.Machine
end

