-- ==== Sys2Proof/Proofs/SteadyState.lean ====
section
/-! PROOF. The frames of the steady-state exchange (43_steady_state.md): between exchanges (R150, R151),
while a checksum reply (R153) or `ACK` (R155) is awaited, and in the hold (R157, R158). -/

namespace Sys2Proof.Machine

open Sys2Proof

/-! ### The class of a payload -/

/-- The classes of the seven opcode values, which are pairwise different. -/
theorem map_classify_opcodes :
    Config.opcodes.map classify = [.soh, .stx, .etx, .eot, .ack, .abf, .ant] := by
  decide

/-- A class other than `DATA` has one payload (30_encoding.md R74). -/
theorem eq_of_classify_eq {p r : I16} (h : classify p = classify r) (hr : classify r ≠ .data) :
    p = r := by
  have isOpcode {v : I16} (hv : classify v ≠ .data) : v ∈ Config.opcodes :=
    not_not.1 (mt (classify_eq_data_iff v).2 hv)
  have nodup : (Config.opcodes.map classify).Nodup := by rw [map_classify_opcodes]; decide
  exact List.inj_on_of_nodup_map nodup (isOpcode (h ▸ hr)) (isOpcode hr) h

theorem classify_ne_ack {p : I16} (h : p ≠ 0x0006) : classify p ≠ .ack :=
  fun hc => h (eq_of_classify_eq (r := 0x0006) hc (by decide))

theorem classify_ne_abf {p : I16} (h : p ≠ 0x0015) : classify p ≠ .abf :=
  fun hc => h (eq_of_classify_eq (r := 0x0015) hc (by decide))

theorem classify_ne_ant {p : I16} (h : p ≠ 0x0016) : classify p ≠ .ant :=
  fun hc => h (eq_of_classify_eq (r := 0x0016) hc (by decide))

/-! ### Between exchanges -/

theorem dispatch_okContinue {f : Frame} {s : State} (hs : s.state = .okContinue) :
    dispatch f s = some (okContinueFrame f s) := by
  simp [dispatch, dispatchOutsideHold, hs]

theorem okContinueFrame_ant (q : I16) (s : State) :
    okContinueFrame { seq := q, payload := 0x0016 } s = waitIn .waitingForMoreAnt s :=
  rfl

theorem okContinueFrame_abf (q : I16) (s : State) :
    okContinueFrame { seq := q, payload := 0x0015 } s = answerAbf s :=
  rfl

/-- Between exchanges every other frame is data (43_steady_state.md R151). -/
theorem okContinueFrame_other {f : Frame} (hant : f.payload ≠ 0x0016) (habf : f.payload ≠ 0x0015)
    (s : State) : okContinueFrame f s = dataReceive f s := by
  unfold okContinueFrame
  split
  · next hc => exact absurd hc (classify_ne_ant hant)
  · next hc => exact absurd hc (classify_ne_abf habf)
  · rfl

theorem waitIn_moreAnt_tracked (q : I16) (s : State) :
    waitIn .waitingForMoreAnt (tracked q s) = antNoted q s :=
  rfl

/-- Settles O27: the row runs the rule of `OK_CONTINUE`, whose three branches are the three clauses. -/
theorem okContinueFrames : Obligations.OkContinueFrames := by
  intro s i q p hi hp hs
  have hrow : exec i s = .next (okContinueFrame { seq := q, payload := p } (tracked q s)) :=
    exec_frameRow_of_dispatch hi hp (by simp [hs]) (dispatch_okContinue hs)
  rw [hrow]
  refine ⟨?_, ?_, fun hant habf => ?_⟩
  · rintro rfl
    rw [okContinueFrame_ant, waitIn_moreAnt_tracked]
  · rintro rfl
    rw [okContinueFrame_abf, answerAbf_tracked]
  · rw [okContinueFrame_other hant habf, dataReceive_tracked]

/-! ### A checksum reply is awaited -/

theorem dispatch_asciiSum {f : Frame} {s : State} (hs : s.state = .waitingForAsciiSum) :
    dispatch f s = some (asciiSumFrame f s) := by
  simp [dispatch, dispatchOutsideHold, hs]

theorem asciiSumFrame_match {f : Frame} {s : State} (h : f.payload = s.lastSent.expected) :
    asciiSumFrame f s = confirm s :=
  if_pos h

theorem asciiSumFrame_mismatch {f : Frame} {s : State} (h : f.payload ≠ s.lastSent.expected) :
    asciiSumFrame f s = resend (meet .checksumMismatch s) :=
  if_neg h

/-- In the tick that takes a frame the condition that resends the Signal is the first one met. -/
theorem resend_meet_tracked (c : Condition) (q : I16) (s : State) :
    resend (meet c (tracked q s)) = signalResent c (tracked q s) :=
  rfl

/-- Settles O30: tracking leaves `LAST_SENT` alone, so the rule compares with the checksum that was
expected before the tick. -/
theorem asciiSumFrames : Obligations.AsciiSumFrames := by
  intro s i q p hi hp hs
  have hrow : exec i s = .next (asciiSumFrame { seq := q, payload := p } (tracked q s)) :=
    exec_frameRow_of_dispatch hi hp (by simp [hs]) (dispatch_asciiSum hs)
  rw [hrow]
  refine ⟨fun he => ?_, fun he => ?_⟩
  · rw [asciiSumFrame_match (s := tracked q s) he, confirm_tracked]
  · rw [asciiSumFrame_mismatch (s := tracked q s) he, resend_meet_tracked]

/-! ### `ACK` is awaited -/

theorem dispatch_ackWait {f : Frame} {s : State} (hs : s.state = .waitingForAck) :
    dispatch f s = some (ackWaitFrame f s) := by
  simp [dispatch, dispatchOutsideHold, hs]

theorem ackWaitFrame_ack (q : I16) (s : State) :
    ackWaitFrame { seq := q, payload := 0x0006 } s = ackReceived s :=
  rfl

theorem ackWaitFrame_abf (q : I16) (s : State) :
    ackWaitFrame { seq := q, payload := 0x0015 } s = answerAbf s :=
  rfl

/-- While `ACK` is awaited every other frame, `ANT` too, is data (43_steady_state.md R155). -/
theorem ackWaitFrame_other {f : Frame} (hack : f.payload ≠ 0x0006) (habf : f.payload ≠ 0x0015)
    (s : State) : ackWaitFrame f s = dataReceive f s := by
  unfold ackWaitFrame
  split
  · next hc => exact absurd hc (classify_ne_ack hack)
  · next hc => exact absurd hc (classify_ne_abf habf)
  · rfl

/-- Settles O31: the row runs the rule of `WAITING_FOR_ACK`, whose three branches are the three
clauses. -/
theorem ackWaitFrames : Obligations.AckWaitFrames := by
  intro s i q p hi hp hs
  have hrow : exec i s = .next (ackWaitFrame { seq := q, payload := p } (tracked q s)) :=
    exec_frameRow_of_dispatch hi hp (by simp [hs]) (dispatch_ackWait hs)
  rw [hrow]
  refine ⟨?_, ?_, fun hack habf => ?_⟩
  · rintro rfl
    rw [ackWaitFrame_ack, ackReceived_tracked]
  · rintro rfl
    rw [ackWaitFrame_abf, answerAbf_tracked]
  · rw [ackWaitFrame_other hack habf, dataReceive_tracked]

/-! ### The acknowledgement hold -/

theorem dispatch_hold {f : Frame} {s : State} (hs : s.state = .inAckTimeoutBuffer) :
    dispatch f s = holdFrame f s :=
  if_pos hs

theorem dispatch_outside_hold {f : Frame} {s : State} (hs : s.state ≠ .inAckTimeoutBuffer) :
    dispatch f s = dispatchOutsideHold f s :=
  if_neg hs

theorem holdFrame_abf {f : Frame} (h : f.payload = 0x0015) (s : State) :
    holdFrame f s = some (answerAbf s) :=
  if_pos h

theorem holdFrame_duplicate {f : Frame} {s : State} (habf : f.payload ≠ 0x0015)
    (he : f.payload = s.lastSent.expected) : holdFrame f s = some { s with tMark := s.now } :=
  (if_neg habf).trans (if_pos he)

theorem holdOver_state_ne_hold (s : State) : (holdOver s).state ≠ .inAckTimeoutBuffer := by
  rcases holdOver_state s with ⟨h, -⟩ | ⟨h, -⟩ <;> simp [h]

theorem holdOver_state_ne_info (s : State) : (holdOver s).state ≠ .waitingForInfoMessage := by
  rcases holdOver_state s with ⟨h, -⟩ | ⟨h, -⟩ <;> simp [h]

theorem holdOver_phase_ne_notOpen {s : State} (hp : s.phase ≠ .notOpen) :
    (holdOver s).phase ≠ .notOpen := by
  rcases holdOver_state s with ⟨-, h, -⟩ | ⟨-, h, -⟩ <;> simp [h, hp]

/-- New traffic ends the hold and is dispatched in the state after it. The number was tracked before:
tracking and the end of the hold commute, so it is as if the frame had come after the hold
(43_steady_state.md R158). -/
theorem holdFrame_newTraffic {f : Frame} {q : I16} {s : State} (habf : f.payload ≠ 0x0015)
    (he : f.payload ≠ s.lastSent.expected) :
    holdFrame f (tracked q s) = dispatch f (tracked q (holdOver s)) :=
  calc holdFrame f (tracked q s)
      = dispatchOutsideHold f (endHold (tracked q s)) := (if_neg habf).trans (if_neg he)
    _ = dispatchOutsideHold f (tracked q (holdOver s)) := by rw [endHold_eq, holdOver_tracked]
    _ = dispatch f (tracked q (holdOver s)) :=
        (dispatch_outside_hold (s := tracked q (holdOver s)) (holdOver_state_ne_hold s)).symm

/-- After the hold every frame has a rule: that of the `ETX` wait, or that of `OK_CONTINUE`. -/
theorem exec_frameRow_holdOver {i : Instr} {q p : I16} {s : State} (hi : FrameRow i q p)
    (hp : s.phase ≠ .notOpen) : ∃ t, exec i (holdOver s) = .next t := by
  have hrow {t : State} (hd : dispatch { seq := q, payload := p } (tracked q (holdOver s)) = some t) :
      exec i (holdOver s) = .next t :=
    exec_frameRow_of_dispatch hi (holdOver_phase_ne_notOpen hp) (holdOver_state_ne_info s) hd
  rcases holdOver_state s with ⟨hs, hph, -⟩ | ⟨hs, -⟩
  · exact ⟨_, hrow (dispatch_etxWait hph hs)⟩
  · exact ⟨_, hrow (dispatch_okContinue hs)⟩

/-- Settles O32: `ABF` and the duplicate reply are the hold's own branches; for any other frame the row
is the one after the hold, which completes. -/
theorem holdFrames : Obligations.HoldFrames := by
  intro s i q p hi hp hs
  have hinfo : s.state ≠ .waitingForInfoMessage := by simp [hs]
  have hold : dispatch { seq := q, payload := p } (tracked q s) =
      holdFrame { seq := q, payload := p } (tracked q s) := dispatch_hold hs
  refine ⟨fun habf => ?_, fun habf he => ?_, fun habf he => ?_⟩
  · rw [← answerAbf_tracked]
    exact exec_frameRow_of_dispatch hi hp hinfo (hold.trans (holdFrame_abf habf _))
  · exact exec_frameRow_of_dispatch hi hp hinfo
      (hold.trans (holdFrame_duplicate (s := tracked q s) habf he))
  · have hafter : exec i s = exec i (holdOver s) := by
      rw [exec_frameRow hi, exec_frameRow hi, meetFrame_open _ _ hp hinfo,
        meetFrame_open _ _ (holdOver_phase_ne_notOpen hp) (holdOver_state_ne_info s), hold,
        holdFrame_newTraffic habf he]
    exact ⟨hafter, hafter ▸ exec_frameRow_holdOver hi hp⟩

end Sys2Proof.Machine
end

