-- ==== Sys2Proof/Proofs/Recovery.lean ====
section
/-! PROOF. Recovery (44_recovery.md): the frame rule that the three recovery states share (R172, R173,
R176, R177), and the waits that end in `SendAbf` (R170, R174; 43_steady_state.md R154, R156). -/

namespace Sys2Proof.Machine

open Sys2Proof

/-! ### Frames in the three recovery states -/

theorem dispatch_recovering {f : Frame} {s : State} (hs : Recovering s) :
    dispatch f s = some (recoveryFrame f s) := by
  rcases hs with hs | hs | hs <;> simp [dispatch, dispatchOutsideHold, hs]

theorem recovering_state_ne_info {s : State} (hs : Recovering s) :
    s.state ≠ .waitingForInfoMessage := by
  rcases hs with hs | hs | hs <;> simp [hs]

theorem recoveryFrame_ant (q : I16) (s : State) :
    recoveryFrame { seq := q, payload := 0x0016 } s = waitIn .waitingForMoreAnt s :=
  rfl

theorem recoveryFrame_abf (q : I16) (s : State) :
    recoveryFrame { seq := q, payload := 0x0015 } s = answerAbf s :=
  rfl

/-- Any frame but `ANT` and `ABF`: with a Signal outstanding the expected checksum decides, with none
`ACK` does (44_recovery.md R172). -/
theorem recoveryFrame_other {f : Frame} (hant : f.payload ≠ 0x0016) (habf : f.payload ≠ 0x0015)
    (s : State) :
    recoveryFrame f s =
      if s.lastSent.valid then
        if f.payload = s.lastSent.expected then confirm s else s
      else if f.payload = 0x0006 then ackReceived s
      else dataReceive f s :=
  (if_neg hant).trans (if_neg habf)

/-- Settles O33: the row runs `RecoveryReceive`, and each clause is one of its branches. Tracking
leaves `LAST_SENT` alone, so the record before the tick decides. -/
theorem recoveryFrames : Obligations.RecoveryFrames := by
  intro s i q p hi hp hs
  have hrow : exec i s = .next (recoveryFrame { seq := q, payload := p } (tracked q s)) :=
    exec_frameRow_of_dispatch hi hp (recovering_state_ne_info hs)
      (dispatch_recovering (s := tracked q s) hs)
  have hsent : (tracked q s).lastSent = s.lastSent := rfl
  rw [hrow]
  refine ⟨?_, ?_, fun hant habf hv => ?_, fun hant habf hv => ?_⟩
  · rintro rfl
    rw [recoveryFrame_ant, waitIn_moreAnt_tracked]
  · rintro rfl
    rw [recoveryFrame_abf, answerAbf_tracked]
  · rw [recoveryFrame_other hant habf, hsent, if_pos hv]
    refine ⟨fun he => ?_, fun he => ?_⟩
    · rw [if_pos he, confirm_tracked]
    · rw [if_neg he]
  · rw [recoveryFrame_other hant habf, hsent, if_neg (Bool.eq_false_iff.1 hv)]
    refine ⟨fun hack => ?_, fun hack => ?_⟩
    · rw [if_pos hack, ackReceived_tracked]
    · rw [if_neg hack, dataReceive_tracked]

/-! ### Waits that end in `SendAbf` -/

theorem timerExpired_asciiSum {s : State} (hs : s.state = .waitingForAsciiSum) :
    timerExpired s = sendAbf (meet .ackTimeout s) := by
  simp only [timerExpired, hs, asciiSumExpired]

theorem timerExpired_ackWait {s : State} (hs : s.state = .waitingForAck) :
    timerExpired s = sendAbf (meet .ackTimeout s) := by
  simp only [timerExpired, hs, ackWaitExpired]

theorem timerExpired_antWait {s : State} (hs : s.state = .waitingForAnt) :
    timerExpired s = sendAbf (meet .abfTimeout s) := by
  simp only [timerExpired, hs, antExpired]

/-- A tick at the deadline of a wait whose rule on expiry is `SendAbf` after condition `c`. -/
theorem exec_tick_sendAbf {s : State} {interval : U32} {c : Condition} (hn : NoFrame s)
    (ht : TimedBy s interval) (he : Expired s.now s.tMark interval)
    (hrule : timerExpired (ticked s) = sendAbf (meet c (ticked s))) :
    exec .tick s = .next (abfAttempt c s) := by
  rw [exec_tick_expired hn ht he, hrule, ← beginTick_eq, sendAbf_meet]

/-- Settles O36: the interval of each wait is the one that the table times it by, and its rule on expiry
is `SendAbf`, after the condition of that wait. -/
theorem expiredWaitSendsAbfOrCloses : Obligations.ExpiredWaitSendsAbfOrCloses := by
  intro s hn
  refine ⟨fun hs he => ?_, fun hs he => ?_, fun hs he => ?_⟩
  · have ht : TimedBy s s.cfg.timeout := .inr (.inl ⟨hs, rfl⟩)
    exact exec_tick_sendAbf hn ht he (timerExpired_asciiSum (s := ticked s) hs)
  · have ht : TimedBy s s.cfg.ackTimeout := .inr (.inr (.inl ⟨hs, rfl⟩))
    exact exec_tick_sendAbf hn ht he (timerExpired_ackWait (s := ticked s) hs)
  · have ht : TimedBy s s.cfg.abfInterval := .inr (.inr (.inr (.inr (.inl ⟨hs, rfl⟩))))
    exact exec_tick_sendAbf hn ht he (timerExpired_antWait (s := ticked s) hs)

end Sys2Proof.Machine
end

