-- ==== Sys2Proof/Proofs/Exceptions.lean ====
section
/-! PROOF. What a `TICK` returns (60_exceptions.md R200, R202): every pair the invariant allows has a
rule for every frame, and no rule takes the tick's event away. -/

namespace Sys2Proof.Machine

open Sys2Proof

/-! ### Every legal pair has a rule for every frame -/

/-- A frame that meets the hold is answered, absorbed, or goes to one of the two states after it. -/
theorem holdFrame_completes (f : Frame) (s : State) : ∃ t, holdFrame f s = some t := by
  by_cases habf : f.payload = 0x0015
  · exact ⟨_, holdFrame_abf habf s⟩
  by_cases he : f.payload = s.lastSent.expected
  · exact ⟨_, holdFrame_duplicate habf he⟩
  have hold : holdFrame f s = dispatch f (holdOver s) := by
    rw [dispatch_outside_hold (holdOver_state_ne_hold s), ← endHold_eq]
    exact (if_neg habf).trans (if_neg he)
  rw [hold]
  rcases holdOver_state s with ⟨hs, hp, -⟩ | ⟨hs, -⟩
  · exact ⟨_, dispatch_etxWait hp hs⟩
  · exact ⟨_, dispatch_okContinue hs⟩

/-- The dispatch table (41_engine_core.md R126) is total on the reachable pairs that take frames. -/
theorem dispatch_completes {s : State} (f : Frame) (hpair : legalPair s.state s.phase = true)
    (hp : s.phase ≠ .notOpen) (hinfo : s.state ≠ .waitingForInfoMessage) :
    ∃ t, dispatch f s = some t := by
  cases hs : s.state
  case waitingForSignal =>
    cases hph : s.phase
    case hsWaitSoh => exact ⟨_, dispatch_sohWait hph hs⟩
    case hsWaitEtx => exact ⟨_, dispatch_etxWait hph hs⟩
    all_goals simp [hs, hph, legalPair] at hpair
  case okContinue => exact ⟨_, dispatch_okContinue hs⟩
  case waitingForAsciiSum => exact ⟨_, dispatch_asciiSum hs⟩
  case waitingForAck => exact ⟨_, dispatch_ackWait hs⟩
  case inAckTimeoutBuffer => exact dispatch_hold (f := f) hs ▸ holdFrame_completes f s
  case waitingForAnt => exact ⟨_, dispatch_recovering (.inl hs)⟩
  case waitingForMoreAnt => exact ⟨_, dispatch_recovering (.inr (.inl hs))⟩
  case waitingForRepMessage => exact ⟨_, dispatch_recovering (.inr (.inr hs))⟩
  case waitingForInfoMessage => exact absurd hs hinfo
  case connectionClosed =>
    cases hph : s.phase
    case notOpen => exact absurd hph hp
    all_goals simp [hs, hph, legalPair] at hpair

/-- At a legal pair every frame that is met completes (60_exceptions.md R200). -/
theorem meetFrame_completes {s : State} (f : Frame) (hpair : legalPair s.state s.phase = true)
    (hp : s.phase ≠ .notOpen) (hinfo : s.state ≠ .waitingForInfoMessage) :
    ∃ t, meetFrame f s = .next t := by
  obtain ⟨t, ht⟩ := dispatch_completes (s := tracked f.seq s) f hpair hp hinfo
  exact ⟨t, by rw [meetFrame_open f s hp hinfo, ht, ruled]⟩

/-! ### No rule takes the event away -/

/-- What the state holds for the host is an event (60_exceptions.md R202). -/
def ReturnsEvent (s : State) : Prop := ∃ e, s.result = .event e

theorem exchangeDone_result (s : State) : (exchangeDone s).result = s.result := by
  unfold exchangeDone
  split_ifs <;> rfl

theorem holdOver_result (s : State) : (holdOver s).result = s.result :=
  exchangeDone_result _

theorem ackTaken_result (q : I16) (s : State) : (ackTaken q s).result = .event .none := by
  unfold ackTaken
  split
  · rfl
  · exact exchangeDone_result _
  · exact exchangeDone_result _

theorem abfAttempt_returnsEvent (c : Condition) (s : State) : ReturnsEvent (abfAttempt c s) := by
  unfold abfAttempt
  split_ifs
  · exact ⟨_, rfl⟩
  · exact ⟨_, rfl⟩

theorem infoStep_result (s : State) : (infoStep s).result = s.result := by
  rw [infoStep_eq]
  split_ifs <;> rfl

/-- A dispatched frame sets its own event or keeps the `NONE` of the tracked state. -/
theorem FrameEffect.returnsEvent {q p : I16} {s t : State} (h : FrameEffect q p s t) :
    ReturnsEvent t := by
  induction h with
  | ack => exact ⟨_, ackTaken_result _ _⟩
  | afterHold _ _ _ _ ih => exact ih
  | _ => exact ⟨_, rfl⟩

/-- The timer step sets the event of a close or keeps the tick's `NONE`. -/
theorem TimerEffect.returnsEvent {s t : State} (h : TimerEffect s t) : ReturnsEvent t := by
  cases h with
  | abf c => exact abfAttempt_returnsEvent c s
  | hold => exact ⟨_, holdOver_result _⟩
  | _ => exact ⟨_, rfl⟩

/-- Settles O46: of the five cases of a tick only a frame could stop, and the invariant's pairs rule
that out; each case leaves the event that it starts with or sets another. -/
theorem tickAlwaysReturnsAnEvent : Obligations.TickAlwaysReturnsAnEvent := by
  intro s hinv
  suffices h : ∃ t, exec .tick s = .next t ∧ ReturnsEvent t by
    obtain ⟨t, ht, e, he⟩ := h
    exact ⟨t, e, ht, he⟩
  rcases execTick_cases s with ⟨-, htick⟩ | ⟨-, -, -, htick⟩ | ⟨-, -, -, htick⟩ |
    ⟨hp, hinfo, b0, b1, b2, b3, rest, -, htick⟩ | ⟨-, htick⟩
  · exact ⟨_, htick, _, rfl⟩
  · exact ⟨_, htick, _, rfl⟩
  · exact ⟨_, htick, _, infoStep_result _⟩
  · obtain ⟨t, ht⟩ := meetFrame_completes (s := ticked { s with rxbuf := rest })
      (frameOfBytes b0 b1 b2 b3) hinv.pair hp hinfo
    refine ⟨t, htick.trans ht, ?_⟩
    rcases meetFrame_effect ht with ⟨hclosed, -⟩ | ⟨-, hwait, -⟩ | ⟨-, -, heffect⟩
    · exact absurd hclosed hp
    · exact absurd hwait hinfo
    · exact heffect.returnsEvent
  · exact ⟨_, htick, (timerStep_effect s).returnsEvent⟩

end Sys2Proof.Machine
end

