-- ==== Sys2Proof/Proofs/Encodings.lean ====
section
/-! PROOF. The encodings (30_encoding.md, 40_codec.md R102): what is encoded decodes to itself, what a
word decodes to encodes to that word, every word is the frame that its halves name, and the codes of
the tables. -/

namespace Sys2Proof.Machine

open Sys2Proof

/-! ### Decoding what was encoded -/

/-- Settles O2: the round trip of each row. -/
theorem encodeThenDecode : Obligations.EncodeThenDecode := by
  intro i
  cases i with
  | soh seq => exact Laws.RoundTrip.soh seq
  | stx seq => exact Laws.RoundTrip.stx seq
  | etx seq => exact Laws.RoundTrip.etx seq
  | eot seq => exact Laws.RoundTrip.eot seq
  | ack seq => exact Laws.RoundTrip.ack seq
  | abf seq => exact Laws.RoundTrip.abf seq
  | ant seq => exact Laws.RoundTrip.ant seq
  | data payload seq => exact Laws.RoundTrip.data payload seq
  | tick => exact Laws.RoundTrip.tick
  | openSession => exact Laws.RoundTrip.openSession
  | send payload => exact Laws.RoundTrip.send payload
  | readLast => exact Laws.RoundTrip.readLast
  | isOpen => exact Laws.RoundTrip.isOpen
  | readStatus => exact Laws.RoundTrip.readStatus

/-! ### Encoding what was decoded: frames -/

/-- A word is its two halves. -/
theorem frameWord_wordPayload_wordSeq (w : U32) : frameWord (wordPayload w) (wordSeq w) = w := by
  have hw := w.isLt
  apply BitVec.eq_of_toNat_eq
  rw [frameWord, toNat_append_fields]
  simp only [wordPayload, wordSeq, BitVec.extractLsb'_toNat, Nat.shiftRight_eq_div_pow]
  omega

theorem encode_of_frameRow {i : Instr} {q p : I16} (h : FrameRow i q p) :
    encode i = frameWord p q := by
  rcases h with ⟨rfl, rfl⟩ | ⟨rfl, rfl⟩ | ⟨rfl, rfl⟩ | ⟨rfl, rfl⟩ | ⟨rfl, rfl⟩ | ⟨rfl, rfl⟩ |
    ⟨rfl, rfl⟩ | ⟨rfl, -⟩ <;> rfl

theorem format_of_frameRow {i : Instr} {q p : I16} (h : FrameRow i q p) : i.format = .frame32 := by
  rcases h with ⟨rfl, -⟩ | ⟨rfl, -⟩ | ⟨rfl, -⟩ | ⟨rfl, -⟩ | ⟨rfl, -⟩ | ⟨rfl, -⟩ | ⟨rfl, -⟩ |
    ⟨rfl, -⟩ <;> rfl

theorem wellFormed_of_frameRow {i : Instr} {q p : I16} (h : FrameRow i q p) : i.WellFormed := by
  rcases h with ⟨rfl, -⟩ | ⟨rfl, -⟩ | ⟨rfl, -⟩ | ⟨rfl, -⟩ | ⟨rfl, -⟩ | ⟨rfl, -⟩ | ⟨rfl, -⟩ |
    ⟨-, hw⟩
  case inr.inr.inr.inr.inr.inr.inr => exact hw
  all_goals rfl

/-! ### Encoding what was decoded: host words -/

/-- A word with zeros in 27:16 is the host word of its two fields (30_encoding.md R85). -/
theorem hostWord_of_zeros {w : U32} (hz : w.extractLsb' 16 12 = 0) :
    hostWord (w.extractLsb' 28 4) (w.extractLsb' 0 16) = w := by
  obtain ⟨hcmd, hzero, harg⟩ := toNat_hostFields w
  have hmid : w.toNat / 2 ^ 16 % 2 ^ 12 = 0 := by rw [← hzero, hz]; rfl
  apply BitVec.eq_of_toNat_eq
  rw [hostWord, toNat_append_fields, toNat_append_fields, hcmd, harg]
  have h0 : (0 : BitVec 12).toNat = 0 := rfl
  omega

theorem withoutArg_ok_iff {a : I16} {i j : Instr} : withoutArg a i = .ok j ↔ a = 0 ∧ i = j := by
  unfold withoutArg
  split_ifs with h
  · simp [h]
  · exact ⟨nofun, fun ha => absurd ha.1 h⟩

/-- The host word of two fields decodes to an operation that encodes to it. -/
theorem of_decodeHostCmd_hostWord {c : BitVec 4} {a : I16} {i : Instr}
    (h : decodeHostCmd (hostWord c a) = .ok i) :
    i.WellFormed ∧ i.format = .hostcmd ∧ encode i = hostWord c a := by
  rw [decodeHostCmd_hostWord] at h
  have code {k : Nat} (hk : c.toNat = k) : c = BitVec.ofNat 4 k := by
    rw [← hk, BitVec.ofNat_toNat, BitVec.setWidth_eq]
  split at h
  case h_3 hc => cases h; exact ⟨rfl, rfl, by rw [code hc]; rfl⟩
  case h_7 => cases h
  all_goals
    next hc =>
    obtain ⟨rfl, rfl⟩ := withoutArg_ok_iff.1 h
    exact ⟨rfl, rfl, by rw [code hc]; rfl⟩

theorem decodeHostCmd_ok_zeros {w : U32} {i : Instr} (h : decodeHostCmd w = .ok i) :
    w.extractLsb' 16 12 = 0 := by
  by_contra hz
  rw [decodeHostCmd, if_pos hz] at h
  cases h

/-- Settles O3: a frame word is the word of its halves, a host word that decodes is the word of its
two fields, and each of these encodings is the row's own. -/
theorem decodeThenEncode : Obligations.DecodeThenEncode := by
  intro fmt w i h
  cases fmt with
  | frame32 =>
    obtain rfl : decodeFrame w = i := Except.ok.inj h
    have hrow := frameRow_frameInstr (wordPayload w) (wordSeq w)
    exact ⟨wellFormed_of_frameRow hrow, format_of_frameRow hrow,
      (encode_of_frameRow hrow).trans (frameWord_wordPayload_wordSeq w)⟩
  | hostcmd =>
    have hz := hostWord_of_zeros (decodeHostCmd_ok_zeros h)
    rw [← hz] at h ⊢
    exact of_decodeHostCmd_hostWord h

/-! ### Every word is a frame -/

/-- Settles O4: the class of the upper half picks the row, and `DATA` is what is no opcode. -/
theorem everyWordIsTheFrameOfItsPayload : Obligations.EveryWordIsTheFrameOfItsPayload := by
  intro p q
  refine ⟨?_, classify_eq_data_iff p⟩
  have hd : decodeFrame (p ++ q) = frameInstr p q := decodeFrame_frameWord p q
  rw [hd]
  exact frameRow_frameInstr p q

/-! ### `Decode` and `Encode` in the receive buffer -/

theorem extract_append_bytes (hi lo : Byte) :
    (hi ++ lo : I16).extractLsb' 8 8 = hi ∧ (hi ++ lo : I16).extractLsb' 0 8 = lo := by
  have h := toNat_append_byte hi lo
  have hhi := hi.isLt
  have hlo := lo.isLt
  constructor
  · apply BitVec.eq_of_toNat_eq
    rw [toNat_highByte, h]; omega
  · apply BitVec.eq_of_toNat_eq
    rw [toNat_lowByte, h]; omega

/-- The frame of four bytes gives the four bytes back (40_codec.md R102). -/
theorem frameBytes_frameOfBytes (b0 b1 b2 b3 : Byte) :
    encodeFrame (frameOfBytes b0 b1 b2 b3).seq (frameOfBytes b0 b1 b2 b3).payload =
      [b0, b1, b2, b3] := by
  obtain ⟨h0, h1⟩ := extract_append_bytes b0 b1
  obtain ⟨h2, h3⟩ := extract_append_bytes b2 b3
  simp only [encodeFrame, frameOfBytes, h0, h1, h2, h3]

/-- Settles O6: the four bytes of a frame give the frame back, and the frame of four bytes the bytes. -/
theorem frameBytesRoundTrip : Obligations.FrameBytesRoundTrip := by
  refine ⟨fun s f rest h => ?_, fun s b0 b1 b2 b3 rest h => ?_⟩
  · rw [decodeRx_of_four (rest := rest) h, frameOfBytes_encodeFrame]
  · exact ⟨_, decodeRx_of_four h, frameBytes_frameOfBytes b0 b1 b2 b3⟩

/-! ### The tables -/

/-- Settles O1: each word is the encoding of its row. -/
theorem writtenWordsDecode : Obligations.WrittenWordsDecode :=
  ⟨encodeThenDecode (.soh 0) rfl, encodeThenDecode (.stx 3) rfl, encodeThenDecode (.etx 2) rfl,
    encodeThenDecode (.eot 0xFFFF) rfl, encodeThenDecode (.ack 8) rfl,
    encodeThenDecode (.abf 15) rfl, encodeThenDecode (.ant 20) rfl,
    encodeThenDecode (.data 100 7) rfl, encodeThenDecode .tick rfl,
    encodeThenDecode .openSession rfl, encodeThenDecode (.send 0xFFFB) rfl,
    encodeThenDecode .readLast rfl, encodeThenDecode .isOpen rfl, encodeThenDecode .readStatus rfl⟩

/-- Settles O9: seven closed values, each checked. -/
theorem opcodesMeetTheirConstraints : Obligations.OpcodesMeetTheirConstraints := by
  refine ⟨by decide, fun p hp => ?_⟩
  simp only [Config.opcodes, List.mem_cons, List.not_mem_nil, or_false] at hp
  rcases hp with rfl | rfl | rfl | rfl | rfl | rfl | rfl <;> decide

/-- Settles O10: each table is the code function on its list. -/
theorem codesAreThoseOfTheTables : Obligations.CodesAreThoseOfTheTables :=
  ⟨rfl, rfl, rfl, rfl, rfl, rfl⟩

end Sys2Proof.Machine
end

