-- ==== Sys2Proof/Proofs/Operations.lean ====
section
/-! PROOF. One operation at a time: which operation a step runs (41_engine_core.md R115, R130), the tick
that meets a frame (R111, R112), and what an operation that completes can do, said once: a frame row is
a tick (log 11), and a tick takes a frame, reads text, tests a timer or is idle. -/

namespace Sys2Proof.Machine

open Sys2Proof

/-! ### Steps -/

/-- Settles O15: the fetch finds the decoded word and latches its operands. -/
theorem stepRunsTheDecodedOperation : Obligations.StepRunsTheDecodedOperation := by
  intro s w now cfg rest i hi hd
  have hd' : decodeHostCmd w = .ok i := hd
  simp only [step, fetch, hi, hd']

/-- Settles O16: with no host word the fetch is a byte or the idle state. -/
theorem betweenOperationsOnlyBytesArrive : Obligations.BetweenOperationsOnlyBytesArrive := by
  refine ⟨fun s b rest hi => ?_, fun s hi => ?_⟩
  · simp only [step, fetch, hi, rxPush_eq]
  · simp only [step, fetch, hi]

/-! ### The tick that meets a frame -/

/-- What an earlier tick returned is not seen by the one that meets a frame. -/
theorem meetFrame_ticked (f : Frame) (s : State) : meetFrame f (ticked s) = meetFrame f s :=
  rfl

theorem exec_tick_closed {s : State} (hp : s.phase = .notOpen) : exec .tick s = .next (ticked s) :=
  if_pos hp

theorem exec_tick_text {s : State} (hp : s.phase ≠ .notOpen) (hs : s.state = .waitingForInfoMessage)
    (hr : s.rxbuf ≠ []) : exec .tick s = .next (infoStep (ticked s)) := by
  have hlen : 1 ≤ s.rxbuf.length := List.length_pos_of_ne_nil hr
  simp [exec, execTick, hp, hs, rxCount, hlen, beginTick_eq]

theorem exec_tick_frame {s : State} {b0 b1 b2 b3 : Byte} {rest : List Byte}
    (hp : s.phase ≠ .notOpen) (hs : s.state ≠ .waitingForInfoMessage)
    (hr : s.rxbuf = b0 :: b1 :: b2 :: b3 :: rest) :
    exec .tick s = meetFrame (frameOfBytes b0 b1 b2 b3) { s with rxbuf := rest } := by
  have hlen : 4 ≤ s.rxbuf.length := by simp [hr]
  have hd := decodeRx_of_four (s := beginTick s) hr
  simp only [exec, execTick, hp, hs, rxCount, hlen, if_false, if_true, hd, runFrame_eq]
  exact meetFrame_ticked _ { s with rxbuf := rest }

/-- Four bytes are the frame of their two halves. -/
theorem decodeFrame_bytesToWord (b0 b1 b2 b3 : Byte) :
    decodeFrame (bytesToWord b0 b1 b2 b3) = frameInstr (b0 ++ b1) (b2 ++ b3) := by
  have hw : bytesToWord b0 b1 b2 b3 = frameWord (b0 ++ b1) (b2 ++ b3) := by
    apply BitVec.eq_of_toNat_eq
    simp only [bytesToWord, frameWord, toNat_append_fields]
    omega
  rw [hw, decodeFrame_frameWord]

/-- Settles O17: the four bytes decode to the row of their payload, and both sides meet that frame. -/
theorem tickRunsTheFrameAtTheHead : Obligations.TickRunsTheFrameAtTheHead := by
  intro s b0 b1 b2 b3 rest hp hs hr
  rw [exec_tick_frame hp hs hr, decodeFrame_bytesToWord, exec_frameRow (frameRow_frameInstr _ _)]
  rfl

/-- To meet a frame is to tick with its bytes in front of the buffer, in every state (log 11). -/
theorem meetFrame_eq_exec_tick (f : Frame) (s : State) :
    meetFrame f s = exec .tick (unread f s) := by
  by_cases hp : s.phase = .notOpen
  · rw [meetFrame_closed f s hp]
    exact (exec_tick_closed (s := unread f s) hp).symm
  by_cases hs : s.state = .waitingForInfoMessage
  · rw [meetFrame_info f s hp hs]
    exact (exec_tick_text (s := unread f s) hp hs (List.cons_ne_nil _ _)).symm
  · have hu : exec .tick (unread f s) = meetFrame (frameOfBytes _ _ _ _) s :=
      exec_tick_frame (s := unread f s) hp hs rfl
    rw [hu, frameOfBytes_encodeFrame]

/-- Settles O18: a frame row meets its frame. -/
theorem frameRowIsTheTickThatMeetsIt : Obligations.FrameRowIsTheTickThatMeetsIt := by
  intro s i q p hi
  rw [exec_frameRow hi, meetFrame_eq_exec_tick, unread_eq]

/-- Settles O34: at such a pair the dispatch has no entry. -/
theorem frameWithoutARuleStops : Obligations.FrameWithoutARuleStops := by
  intro s i q p hi h
  have stops (hp : s.phase ≠ .notOpen) (hs : s.state ≠ .waitingForInfoMessage)
      (hd : dispatch { seq := q, payload := p } (tracked q s) = none) :
      exec i s = .fault .noDispatchRule := by
    rw [exec_frameRow hi, meetFrame_open _ _ hp hs, hd, ruled, hostFault]
  rcases h with ⟨hs, hp⟩ | ⟨hs, hp⟩
  · refine stops ?_ (by simp [hs]) ?_
    · rcases hp with hp | hp <;> simp [hp]
    · rcases hp with hp | hp <;> simp [dispatch, dispatchOutsideHold, tracked, hs, hp]
  · exact stops hp (by simp [hs]) (by simp [dispatch, dispatchOutsideHold, tracked, hs])

/-! ### What an operation that completes can do -/

/-- What a tick that completes can do (41_engine_core.md R111). -/
inductive TickEffect (s : State) : State → Prop where
  | idle (h : s.phase = .notOpen ∨ s.state = .waitingForInfoMessage) : TickEffect s (ticked s)
  | text (hp : s.phase ≠ .notOpen) (hs : s.state = .waitingForInfoMessage) :
      TickEffect s (infoStep (ticked s))
  | frame {t : State} (q p : I16) (rest : List Byte) (hp : s.phase ≠ .notOpen)
      (hs : s.state ≠ .waitingForInfoMessage) (hr : s.rxbuf = encodeFrame q p ++ rest)
      (h : FrameEffect q p { s with rxbuf := rest } t) : TickEffect s t
  | timer {t : State} (hn : NoFrame s) (h : TimerEffect s t) : TickEffect s t

/-- What an operation that completes can do: a tick, a frame row as the tick that meets its frame, or
one of the other five host operations. -/
inductive OpEffect (s : State) : Instr → State → Prop where
  | tick {t : State} (h : TickEffect s t) : OpEffect s .tick t
  | row {i : Instr} {t : State} (q p : I16) (hf : i.format = .frame32)
      (hi : i.WellFormed → FrameRow i q p)
      (h : TickEffect (unread { seq := q, payload := p } s) t) : OpEffect s i t
  | openSession (hp : s.phase = .notOpen) (hv : classify s.openCfg.version = .data) :
      OpEffect s .openSession (startHandshake s)
  | send (p : I16) (hp : s.phase = .opened) (hs : s.state = .okContinue) (hd : classify p = .data) :
      OpEffect s (.send p) { sendApp p s with result := .nothing }
  | read {i : Instr} (hi : i = .readLast ∨ i = .isOpen ∨ i = .readStatus) (r : Result) :
      OpEffect s i { s with result := r }

theorem execTick_effect {s t : State} (h : exec .tick s = .next t) : TickEffect s t := by
  rcases execTick_cases s with ⟨hp, he⟩ | ⟨-, hs, -, he⟩ | ⟨hp, hs, -, he⟩ |
    ⟨hp, hs, b0, b1, b2, b3, rest, hr, he⟩ | ⟨hn, he⟩ <;> rw [he] at h
  · cases h; exact .idle (.inl hp)
  · cases h; exact .idle (.inr hs)
  · cases h; exact .text hp hs
  · rcases meetFrame_effect ((meetFrame_ticked _ { s with rxbuf := rest }).symm.trans h) with
      ⟨hclosed, -⟩ | ⟨-, hwait, -⟩ | ⟨-, -, heffect⟩
    · exact absurd hclosed hp
    · exact absurd hwait hs
    · have hbytes := congrArg (· ++ rest) (frameBytes_frameOfBytes b0 b1 b2 b3)
      exact .frame _ _ rest hp hs (hr.trans hbytes.symm) heffect
  · cases h; exact .timer hn (timerStep_effect s)

/-- Every frame term meets its frame; a `DATA` term that is not well-formed does too. -/
theorem exec_frame32 {i : Instr} (h : i.format = .frame32) :
    ∃ q p, (i.WellFormed → FrameRow i q p) ∧
      ∀ s, exec i s = meetFrame { seq := q, payload := p } s := by
  cases i with
  | soh q => exact ⟨q, 0x0001, fun _ => .inl ⟨rfl, rfl⟩, fun _ => rfl⟩
  | stx q => exact ⟨q, 0x0002, fun _ => .inr (.inl ⟨rfl, rfl⟩), fun _ => rfl⟩
  | etx q => exact ⟨q, 0x0003, fun _ => by simp [FrameRow], fun _ => rfl⟩
  | eot q => exact ⟨q, 0x0004, fun _ => by simp [FrameRow], fun _ => rfl⟩
  | ack q => exact ⟨q, 0x0006, fun _ => by simp [FrameRow], fun _ => rfl⟩
  | abf q => exact ⟨q, 0x0015, fun _ => by simp [FrameRow], fun _ => rfl⟩
  | ant q => exact ⟨q, 0x0016, fun _ => by simp [FrameRow], fun _ => rfl⟩
  | data p q => exact ⟨q, p, fun hw => .inr (.inr (.inr (.inr (.inr (.inr (.inr ⟨rfl, hw⟩)))))),
      fun _ => rfl⟩
  | _ => cases h

theorem exec_openSession_effect {s t : State} (h : exec .openSession s = .next t) :
    s.phase = .notOpen ∧ classify s.openCfg.version = .data ∧ t = startHandshake s := by
  by_cases hp : s.phase = .notOpen
  · rw [exec_openSession_closed hp] at h
    split at h
    · cases h
    · next hv => cases h; exact ⟨hp, not_not.1 hv, rfl⟩
  · rw [exec_openSession_active hp] at h
    cases h

theorem exec_send_effect {s t : State} {p : I16} (h : exec (.send p) s = .next t) :
    s.phase = .opened ∧ s.state = .okContinue ∧ classify p = .data ∧
      t = { sendApp p s with result := .nothing } := by
  by_cases hr : s.phase = .opened ∧ s.state = .okContinue
  · rw [exec_send_ready p hr.1 hr.2] at h
    split at h
    · cases h
    · next hd => cases h; exact ⟨hr.1, hr.2, not_not.1 hd, rfl⟩
  · rw [exec_send_notReady (not_and_or.1 hr)] at h
    cases h

/-- An operation that completes has one of the listed effects. -/
theorem exec_effect {i : Instr} {s t : State} (h : exec i s = .next t) : OpEffect s i t := by
  by_cases hf : i.format = .frame32
  · obtain ⟨q, p, hi, he⟩ := exec_frame32 hf
    rw [he, meetFrame_eq_exec_tick] at h
    exact .row q p hf hi (execTick_effect h)
  cases i with
  | tick => exact .tick (execTick_effect h)
  | openSession =>
    obtain ⟨hp, hv, rfl⟩ := exec_openSession_effect h
    exact .openSession hp hv
  | send p =>
    obtain ⟨hp, hs, hd, rfl⟩ := exec_send_effect h
    exact .send p hp hs hd
  | readLast => cases h; exact .read (.inl rfl) _
  | isOpen => cases h; exact .read (.inr (.inl rfl)) _
  | readStatus => cases h; exact .read (.inr (.inr rfl)) _
  | _ => exact absurd rfl hf

/-! ### The states that two rules lead to, case by case -/

theorem exchangeDone_version {s : State} (hp : s.phase = .hsVersion) :
    exchangeDone s = { s with abfCount := 0, ackCtx := .data, state := .waitingForSignal,
                              phase := .hsWaitEtx, tMark := s.now } :=
  if_pos hp

theorem exchangeDone_session {s : State} (hp : s.phase ≠ .hsVersion) :
    exchangeDone s = { s with abfCount := 0, ackCtx := .data, state := .okContinue } :=
  if_neg hp

/-- The end of an exchange writes control fields only. -/
theorem exchangeDone_eq (s : State) : ∃ st ph mark, exchangeDone s =
    { s with abfCount := 0, ackCtx := .data, state := st, phase := ph, tMark := mark } := by
  by_cases hp : s.phase = .hsVersion
  · exact ⟨_, _, _, exchangeDone_version hp⟩
  · exact ⟨_, s.phase, s.tMark, exchangeDone_session hp⟩

theorem holdOver_version {s : State} (hp : s.phase = .hsVersion) :
    holdOver s = { s with lastSent := { s.lastSent with valid := false }, abfCount := 0,
                          ackCtx := .data, state := .waitingForSignal, phase := .hsWaitEtx,
                          tMark := s.now } :=
  if_pos hp

theorem holdOver_session {s : State} (hp : s.phase ≠ .hsVersion) :
    holdOver s = { s with lastSent := { s.lastSent with valid := false }, abfCount := 0,
                          ackCtx := .data, state := .okContinue } :=
  if_neg hp

/-- The end of the hold writes control fields, and drops the outstanding Signal. -/
theorem holdOver_eq (s : State) : ∃ st ph mark, holdOver s =
    { s with lastSent := { s.lastSent with valid := false }, abfCount := 0, ackCtx := .data,
             state := st, phase := ph, tMark := mark } :=
  exchangeDone_eq _

/-- `ACK` tracks the number and writes control fields; after `STX` or a text also the length. -/
theorem ackTaken_eq (q : I16) (s : State) : ∃ st ph mark len, ackTaken q s =
    { tracked q s with abfCount := 0, ackCtx := .data, state := st, phase := ph, tMark := mark,
                       infoLen := len } := by
  unfold ackTaken
  split
  · exact ⟨_, s.phase, _, _, rfl⟩
  · obtain ⟨st, ph, mark, h⟩ := exchangeDone_eq { tracked q s with infoLen := 0 }
    exact ⟨st, ph, mark, 0, h⟩
  · obtain ⟨st, ph, mark, h⟩ := exchangeDone_eq (tracked q s)
    exact ⟨st, ph, mark, s.infoLen, h⟩

/-- One more `ABF` leaves. -/
def abfSent (c : Condition) (s : State) : State :=
  { s with result := .event .none, conds := [c], abfCount := s.abfCount + 1, seq := s.seq + 1,
           txlog := s.txlog ++ encodeFrame s.seq 0x0015, state := .waitingForAnt, tMark := s.now }

theorem abfAttempt_at_bound {s : State} (c : Condition)
    (h : s.cfg.maxAbfAttempts.toNat ≤ s.abfCount.toNat) :
    abfAttempt c s = closedAfter [c, .attemptsExhausted] s :=
  if_pos h

theorem abfAttempt_below_bound {s : State} (c : Condition)
    (h : s.abfCount.toNat < s.cfg.maxAbfAttempts.toNat) : abfAttempt c s = abfSent c s :=
  if_neg (Nat.not_le.2 h)

/-- The attempt bound decides (44_recovery.md R170). -/
theorem abfAttempt_cases (c : Condition) (s : State) :
    (s.cfg.maxAbfAttempts.toNat ≤ s.abfCount.toNat ∧
      abfAttempt c s = closedAfter [c, .attemptsExhausted] s) ∨
    (s.abfCount.toNat < s.cfg.maxAbfAttempts.toNat ∧ abfAttempt c s = abfSent c s) := by
  rcases Nat.lt_or_ge s.abfCount.toNat s.cfg.maxAbfAttempts.toNat with h | h
  · exact .inr ⟨h, abfAttempt_below_bound c h⟩
  · exact .inl ⟨h, abfAttempt_at_bound c h⟩

/-- Below the bound the count does not wrap. -/
theorem toNat_succ_of_lt {count bound : U8} (h : count.toNat < bound.toNat) :
    (count + 1).toNat = count.toNat + 1 := by
  have hbound := bound.isLt
  bv_omega

/-! ### What frames and timers leave alone -/

/-- The fields that no rule for frames and no timer writes. -/
structure KeepsStores (s t : State) : Prop where
  rxbuf : t.rxbuf = s.rxbuf
  infoBuf : t.infoBuf = s.infoBuf
  cfg : t.cfg = s.cfg
  params : t.params = s.params

theorem KeepsStores.trans {s t u : State} (h : KeepsStores s t) (h' : KeepsStores t u) :
    KeepsStores s u :=
  ⟨h'.rxbuf.trans h.rxbuf, h'.infoBuf.trans h.infoBuf, h'.cfg.trans h.cfg, h'.params.trans h.params⟩

theorem holdOver_keepsStores (s : State) : KeepsStores s (holdOver s) := by
  obtain ⟨st, ph, mark, h⟩ := holdOver_eq s
  rw [h]
  exact ⟨rfl, rfl, rfl, rfl⟩

theorem ackTaken_keepsStores (q : I16) (s : State) : KeepsStores s (ackTaken q s) := by
  obtain ⟨st, ph, mark, len, h⟩ := ackTaken_eq q s
  rw [h]
  exact ⟨rfl, rfl, rfl, rfl⟩

theorem abfAttempt_keepsStores (c : Condition) (s : State) : KeepsStores s (abfAttempt c s) := by
  rcases abfAttempt_cases c s with ⟨-, h⟩ | ⟨-, h⟩ <;> rw [h] <;> exact ⟨rfl, rfl, rfl, rfl⟩

theorem FrameEffect.keepsStores {q p : I16} {s t : State} (h : FrameEffect q p s t) :
    KeepsStores s t := by
  induction h with
  | ack => exact ackTaken_keepsStores _ _
  | afterHold _ _ _ _ ih => exact (holdOver_keepsStores _).trans ih
  | _ => exact ⟨rfl, rfl, rfl, rfl⟩

theorem TimerEffect.keepsStores {s t : State} (h : TimerEffect s t) : KeepsStores s t := by
  cases h with
  | abf c => exact abfAttempt_keepsStores c s
  | hold =>
    have hticked : KeepsStores s (ticked s) := ⟨rfl, rfl, rfl, rfl⟩
    exact hticked.trans (holdOver_keepsStores _)
  | _ => exact ⟨rfl, rfl, rfl, rfl⟩

end Sys2Proof.Machine
end

