-- ==== Sys2Proof/Proofs/Invariant.lean ====
section
/-! PROOF. The invariant (10_state.md R23 to R37): it holds at reset and every step keeps it. One lemma
per state that a rule leaves; a clause is proved anew only where the rule writes what it speaks of. -/

namespace Sys2Proof

open Sys2Proof.Machine

/-! ### What the clauses say together -/

theorem Inv.not_sent {s : State} (h : Inv s) (hm : maySend s.state = false) :
    s.lastSent.valid = false :=
  Bool.eq_false_iff.2 fun hv => Bool.eq_false_iff.1 hm (h.sentOnlyThere hv)

/-- Outside the two waits of `WAITING_FOR_SIGNAL` and the closed state, the phase is that of the
`VERSION` exchange or of a session. -/
theorem phase_of_legalPair {st : EngineState} {ph : Phase} (h : legalPair st ph = true)
    (h1 : st ≠ .waitingForSignal) (h2 : st ≠ .connectionClosed) :
    ph = .hsVersion ∨ ph = .opened := by
  cases st <;> cases ph <;> simp [legalPair] at h h1 h2 ⊢

theorem Inv.phase_of_exchange {s : State} (h : Inv s) (h1 : s.state ≠ .waitingForSignal)
    (h2 : s.state ≠ .connectionClosed) : s.phase = .hsVersion ∨ s.phase = .opened :=
  phase_of_legalPair h.pair h1 h2

/-- With no Signal outstanding it is that of a session (42_handshake.md R143). -/
theorem Inv.opened_of_not_sent {s : State} (h : Inv s) (h1 : s.state ≠ .waitingForSignal)
    (h2 : s.state ≠ .connectionClosed) (hv : s.lastSent.valid = false) : s.phase = .opened :=
  (h.phase_of_exchange h1 h2).resolve_left fun hp =>
    Bool.eq_false_iff.1 hv (h.sentIsThere (.inr (.inr hp)))

end Sys2Proof

namespace Sys2Proof.Machine

open Sys2Proof

/-- Settles O43: the parameters are above their least values, and every other clause is about closed
values. -/
theorem resetMeetsTheInvariant : Obligations.ResetMeetsTheInvariant where
  params := ⟨Nat.le_add_left 4 _, Nat.le_add_left 1 _⟩
  pair := rfl
  attempts := by decide
  sentOnlyThere := nofun
  sentIsThere := by decide
  sentRecord := nofun
  clear := nofun
  version := fun h => absurd rfl h
  rxBound := Nat.zero_le _
  txFrames := rfl
  infoBound := Nat.zero_le _
  infoRoom := nofun
  infoForm := rfl
  infoInside := rfl

/-! ### Clauses that hold for one reason in many states -/

/-- A frame appended to whole frames leaves whole frames. -/
theorem whole_frames_append {log : List Byte} (h : log.length % 4 = 0) (q p : I16) :
    (log ++ encodeFrame q p).length % 4 = 0 := by
  rw [List.length_append, encodeFrame_length]
  omega

/-- Outside the two states that compare with `LAST_SENT` and the `VERSION` exchange nothing has to be
outstanding. -/
theorem nothing_outstanding_needed {st : EngineState} {ph : Phase} {P : Prop}
    (h1 : st ≠ .waitingForAsciiSum) (h2 : st ≠ .inAckTimeoutBuffer) (h3 : ph ≠ .hsVersion) :
    st = .waitingForAsciiSum ∨ st = .inAckTimeoutBuffer ∨ ph = .hsVersion → P := by
  rintro (h | h | h)
  · exact absurd h h1
  · exact absurd h h2
  · exact absurd h h3

theorem Recovering.ne_signal {s : State} (hs : Recovering s) : s.state ≠ .waitingForSignal := by
  rcases hs with hs | hs | hs <;> simp [hs]

theorem Recovering.ne_closed {s : State} (hs : Recovering s) : s.state ≠ .connectionClosed := by
  rcases hs with hs | hs | hs <;> simp [hs]

/-! ### Ticks, tracking and closing -/

theorem inv_ticked {s : State} (h : Inv s) : Inv (ticked s) := { h with }

theorem inv_tracked {s : State} (q : I16) (h : Inv s) : Inv (tracked q s) := { h with }

/-- The buffer may lose bytes. -/
theorem inv_shorter {s : State} {rest : List Byte} (h : Inv s) (hr : rest.length ≤ s.rxbuf.length) :
    Inv { s with rxbuf := rest } :=
  { h with rxBound := hr.trans h.rxBound }

theorem inv_closedAfter {s : State} (cs : List Condition) (h : Inv s) : Inv (closedAfter cs s) :=
  { h with
    pair := rfl
    sentOnlyThere := fun _ => rfl
    sentIsThere := nothing_outstanding_needed nofun nofun nofun
    clear := nofun
    version := fun hp => absurd rfl hp
    infoRoom := nofun }

/-! ### Frames -/

theorem inv_versionSent {s : State} (q : I16) (h : Inv s) (hp : s.phase = .hsWaitSoh) :
    Inv (versionSent q s) :=
  { h with
    pair := rfl
    sentOnlyThere := fun _ => rfl
    sentIsThere := fun _ => rfl
    sentRecord := fun _ => ⟨rfl, h.version (by simp [hp])⟩
    clear := nofun
    version := fun _ => h.version (by simp [hp])
    txFrames := whole_frames_append h.txFrames _ _
    infoRoom := nofun }

theorem inv_sessionOpened {s : State} (q : I16) (h : Inv s) (hs : s.state = .waitingForSignal)
    (hp : s.phase = .hsWaitEtx) : Inv (sessionOpened q s) :=
  have hv : s.lastSent.valid = false := h.not_sent (by rw [hs]; rfl)
  { h with
    pair := rfl
    sentOnlyThere := fun hv' => absurd hv' (Bool.eq_false_iff.1 hv)
    sentIsThere := nothing_outstanding_needed nofun nofun nofun
    clear := fun _ => h.clear (by rw [hs]; rfl)
    version := fun _ => h.version (by simp [hp])
    infoRoom := nofun }

/-- `ABF` answered: only the counter, the mark and the transmit stream move. -/
theorem inv_abfAnswered {s : State} (q : I16) (h : Inv s) : Inv (abfAnswered q s) :=
  { h with txFrames := whole_frames_append h.txFrames _ _ }

theorem inv_marked {s : State} (mark : U32) (h : Inv s) : Inv { s with tMark := mark } := { h with }

section Exchange
variable {s : State} (h1 : s.state ≠ .waitingForSignal) (h2 : s.state ≠ .connectionClosed)
include h1 h2

theorem inv_antNoted (q : I16) (h : Inv s) : Inv (antNoted q s) :=
  { h with
    pair := by
      rcases h.phase_of_exchange h1 h2 with hp | hp <;> simp [antNoted, tracked, hp, legalPair]
    sentOnlyThere := fun _ => rfl
    sentIsThere := by
      rintro (hs | hs | hp)
      · cases hs
      · cases hs
      · exact h.sentIsThere (.inr (.inr hp))
    clear := nofun
    infoRoom := nofun }

theorem inv_dataAnswered (q p : I16) (h : Inv s) (hv : s.lastSent.valid = false) :
    Inv (dataAnswered q p s) :=
  have hp : s.phase = .opened := h.opened_of_not_sent h1 h2 hv
  { h with
    pair := by simp [dataAnswered, tracked, hp, legalPair]
    sentOnlyThere := fun hv' => absurd hv' (Bool.eq_false_iff.1 hv)
    sentIsThere := nothing_outstanding_needed nofun nofun (by simp [dataAnswered, tracked, hp])
    clear := nofun
    txFrames := whole_frames_append h.txFrames _ _
    infoRoom := nofun }

theorem inv_replyConfirmed (q : I16) (h : Inv s) (hv : s.lastSent.valid = true) :
    Inv (replyConfirmed q s) :=
  { h with
    pair := by
      rcases h.phase_of_exchange h1 h2 with hp | hp <;>
        simp [replyConfirmed, tracked, hp, legalPair]
    sentOnlyThere := fun _ => rfl
    sentIsThere := fun _ => hv
    clear := nofun
    txFrames := whole_frames_append h.txFrames _ _
    infoRoom := nofun }

theorem inv_signalResent (c : Condition) (h : Inv s) (hv : s.lastSent.valid = true) :
    Inv (signalResent c s) :=
  { h with
    pair := by
      rcases h.phase_of_exchange h1 h2 with hp | hp <;> simp [signalResent, hp, legalPair]
    sentOnlyThere := fun _ => rfl
    sentIsThere := fun _ => hv
    clear := nofun
    txFrames := whole_frames_append h.txFrames _ _
    infoRoom := nofun }

/-- A wait for a repeated message holds no Signal, so it is a session's. -/
theorem inv_waitingForRep (c : Condition) (h : Inv s) (hv : s.lastSent.valid = false) :
    Inv (waitIn .waitingForRepMessage (meet c s)) :=
  have hp : s.phase = .opened := h.opened_of_not_sent h1 h2 hv
  { h with
    pair := by simp [hp, legalPair]
    sentOnlyThere := fun hv' => absurd hv' (Bool.eq_false_iff.1 hv)
    sentIsThere := nothing_outstanding_needed nofun nofun (by simp [hp])
    clear := nofun
    infoRoom := nofun }

/-- One more `ABF` is sent below the bound, so the count stays within it (10_state.md R29). -/
theorem inv_abfSent (c : Condition) (h : Inv s)
    (hlt : s.abfCount.toNat < s.cfg.maxAbfAttempts.toNat) : Inv (abfSent c s) :=
  { h with
    pair := by
      rcases h.phase_of_exchange h1 h2 with hp | hp <;> simp [abfSent, hp, legalPair]
    attempts := BitVec.le_def.2 ((toNat_succ_of_lt hlt).trans_le hlt)
    sentOnlyThere := fun _ => rfl
    sentIsThere := by
      rintro (hs | hs | hp)
      · cases hs
      · cases hs
      · exact h.sentIsThere (.inr (.inr hp))
    clear := nofun
    txFrames := whole_frames_append h.txFrames _ _
    infoRoom := nofun }

theorem inv_abfAttempt (c : Condition) (h : Inv s) : Inv (abfAttempt c s) := by
  rcases abfAttempt_cases c s with ⟨-, he⟩ | ⟨hlt, he⟩ <;> rw [he]
  · exact inv_closedAfter _ h
  · exact inv_abfSent h1 h2 c h hlt

end Exchange

/-! ### The end of an exchange -/

/-- A session goes back to `OK_CONTINUE`. -/
theorem inv_okContinue {s : State} (h : Inv s) (hp : s.phase = .opened)
    (hv : s.lastSent.valid = false) :
    Inv { s with abfCount := 0, ackCtx := .data, state := .okContinue } :=
  { h with
    pair := by simp [hp, legalPair]
    attempts := Nat.zero_le _
    sentOnlyThere := fun hv' => absurd hv' (Bool.eq_false_iff.1 hv)
    sentIsThere := nothing_outstanding_needed nofun nofun (by simp [hp])
    clear := fun _ => ⟨rfl, rfl⟩
    infoRoom := nofun }

/-- After `STX` the text is awaited, from an empty buffer (41_engine_core.md R125). -/
theorem inv_awaitText {s : State} (h : Inv s) (hp : s.phase = .opened)
    (hv : s.lastSent.valid = false) :
    Inv { s with abfCount := 0, ackCtx := .data, infoLen := 0,
                 state := .waitingForInfoMessage, tMark := s.now } :=
  { h with
    pair := by simp [hp, legalPair]
    attempts := Nat.zero_le _
    sentOnlyThere := fun hv' => absurd hv' (Bool.eq_false_iff.1 hv)
    sentIsThere := nothing_outstanding_needed nofun nofun (by simp [hp])
    clear := fun _ => ⟨rfl, rfl⟩
    infoBound := Nat.zero_le _
    infoRoom := fun _ => h.params.2 }

theorem inv_emptyText {s : State} (h : Inv s) (hs : s.state ≠ .waitingForInfoMessage) :
    Inv { s with infoLen := 0 } :=
  { h with infoBound := Nat.zero_le _, infoRoom := fun hs' => absurd hs' hs }

theorem inv_ackTaken {s : State} (q : I16) (h : Inv s) (hs : s.state ≠ .waitingForInfoMessage)
    (hp : s.phase = .opened) (hv : s.lastSent.valid = false) : Inv (ackTaken q s) := by
  have ht : Inv (tracked q s) := inv_tracked q h
  have hne : s.phase ≠ .hsVersion := by simp [hp]
  unfold ackTaken
  split
  · exact inv_awaitText ht hp hv
  · rw [exchangeDone_session (s := { tracked q s with infoLen := 0 }) hne]
    exact inv_okContinue (inv_emptyText ht hs) hp hv
  · rw [exchangeDone_session (s := tracked q s) hne]
    exact inv_okContinue ht hp hv

/-- The hold ends: the `VERSION` exchange goes on to the `ETX` wait, a session to `OK_CONTINUE`. -/
theorem inv_holdOver {s : State} (h : Inv s) (hs : s.state = .inAckTimeoutBuffer) :
    Inv (holdOver s) := by
  rcases h.phase_of_exchange (by simp [hs]) (by simp [hs]) with hp | hp
  · rw [holdOver_version hp]
    exact
      { h with
        pair := rfl
        attempts := Nat.zero_le _
        sentOnlyThere := nofun
        sentIsThere := nothing_outstanding_needed nofun nofun nofun
        sentRecord := nofun
        clear := fun _ => ⟨rfl, rfl⟩
        version := fun _ => h.version (by simp [hp])
        infoRoom := nofun }
  · rw [holdOver_session (by simp [hp])]
    exact
      { h with
        pair := by simp [hp, legalPair]
        attempts := Nat.zero_le _
        sentOnlyThere := nofun
        sentIsThere := nothing_outstanding_needed nofun nofun (by simp [hp])
        sentRecord := nofun
        clear := fun _ => ⟨rfl, rfl⟩
        infoRoom := nofun }

/-! ### Every effect keeps the invariant -/

theorem FrameEffect.inv {q p : I16} {s t : State} (he : FrameEffect q p s t) (h : Inv s) : Inv t := by
  induction he with
  | versionSent hs hp => exact inv_versionSent q h hp
  | discarded => exact inv_tracked q h
  | opened hs hp => exact inv_sessionOpened q h hs hp
  | rejected => exact inv_closedAfter _ (inv_tracked q h)
  | ant hs =>
    rcases hs with hs | hs
    · exact inv_antNoted (by simp [hs]) (by simp [hs]) q h
    · exact inv_antNoted hs.ne_signal hs.ne_closed q h
  | abf => exact inv_abfAnswered q h
  | data hs =>
    rcases hs with hs | hs | ⟨hs, hv⟩
    · exact inv_dataAnswered (by simp [hs]) (by simp [hs]) q p h (h.not_sent (by rw [hs]; rfl))
    · exact inv_dataAnswered (by simp [hs]) (by simp [hs]) q p h (h.not_sent (by rw [hs]; rfl))
    · exact inv_dataAnswered hs.ne_signal hs.ne_closed q p h hv
  | confirmed hs =>
    rcases hs with hs | ⟨hs, hv⟩
    · exact inv_replyConfirmed (by simp [hs]) (by simp [hs]) q h (h.sentIsThere (.inl hs))
    · exact inv_replyConfirmed hs.ne_signal hs.ne_closed q h hv
  | @mismatch s hs =>
    exact inv_signalResent (s := tracked q s) (by simp [tracked, hs]) (by simp [tracked, hs]) _
      (inv_tracked q h) (h.sentIsThere (.inl hs))
  | ack hs =>
    rcases hs with hs | ⟨hs, hv⟩
    · have hv := h.not_sent (by rw [hs]; rfl)
      exact inv_ackTaken q h (by simp [hs]) (h.opened_of_not_sent (by simp [hs]) (by simp [hs]) hv) hv
    · exact inv_ackTaken q h (recovering_state_ne_info hs)
        (h.opened_of_not_sent hs.ne_signal hs.ne_closed hv) hv
  | unmatched => exact inv_tracked q h
  | absorbed => exact inv_marked _ (inv_tracked q h)
  | afterHold hs _ _ _ ih => exact ih (inv_holdOver h hs)

theorem TimerEffect.inv {s t : State} (he : TimerEffect s t) (h : Inv s) : Inv t := by
  have ht : Inv (ticked s) := inv_ticked h
  cases he with
  | idle => exact ht
  | abf c hs =>
    rcases hs with hs | hs | hs <;> exact inv_abfAttempt (by simp [hs]) (by simp [hs]) c h
  | etx => exact inv_closedAfter _ ht
  | hold hs => exact inv_holdOver ht hs
  | refresh hs hv =>
    exact inv_signalResent (s := ticked s) (by simp [ticked, hs]) (by simp [ticked, hs]) _ ht hv
  | rest hs hv =>
    exact inv_waitingForRep (s := ticked s) (by simp [ticked, hs]) (by simp [ticked, hs]) _ ht hv

/-! ### The info message -/

/-- A run written inside `INFO_BUF` lies inside it. -/
theorem below_writeRun_take {m : Memory} {bs : List Byte} {n start bound : Nat}
    (hm : Memory.below m bound = true) (hn : start + n ≤ bound) :
    Memory.below (Memory.writeRun m start (bs.take n)) bound = true := by
  simp only [Memory.below, List.all_eq_true, decide_eq_true_eq] at hm ⊢
  exact Memory.lt_writeRun hm (by rw [List.length_take]; omega)

section Text
variable {s : State} {n start len : Nat} (hn : start + n ≤ s.params.infoMax)
include hn

/-- A text that goes on leaves room for a byte. -/
theorem inv_textStored (h : Inv s) (hlen : len < s.params.infoMax) :
    Inv { s with rxbuf := s.rxbuf.drop n
                 infoBuf := Memory.writeRun s.infoBuf start (s.rxbuf.take n), infoLen := len } :=
  { h with
    rxBound := (List.drop_sublist n _).length_le.trans h.rxBound
    infoBound := hlen.le
    infoRoom := fun _ => hlen
    infoForm := Memory.wf_writeRun _ _ _ h.infoForm
    infoInside := below_writeRun_take h.infoInside hn }

/-- A complete text is answered, and its `ACK` awaited. -/
theorem inv_textDone (h : Inv s) (hs : s.state = .waitingForInfoMessage)
    (hlen : len ≤ s.params.infoMax) :
    Inv (infoDone { s with rxbuf := s.rxbuf.drop n
                           infoBuf := Memory.writeRun s.infoBuf start (s.rxbuf.take n)
                           infoLen := len }) :=
  have hv : s.lastSent.valid = false := h.not_sent (by rw [hs]; rfl)
  have hp : s.phase = .opened := h.opened_of_not_sent (by simp [hs]) (by simp [hs]) hv
  { h with
    pair := by simp [infoDone_eq, hp, legalPair]
    sentOnlyThere := fun hv' => absurd hv' (Bool.eq_false_iff.1 hv)
    sentIsThere := nothing_outstanding_needed nofun nofun (by simp [infoDone_eq, hp])
    clear := nofun
    rxBound := (List.drop_sublist n _).length_le.trans h.rxBound
    txFrames := whole_frames_append h.txFrames _ _
    infoBound := hlen
    infoRoom := nofun
    infoForm := Memory.wf_writeRun _ _ _ h.infoForm
    infoInside := below_writeRun_take h.infoInside hn }

end Text

theorem inv_infoStep {s : State} (h : Inv s) (hs : s.state = .waitingForInfoMessage) :
    Inv (infoStep s) := by
  obtain ⟨n, start, len, -, hlen, hn, ⟨he, hroom⟩ | he⟩ := infoStep_effect s h.infoBound <;> rw [he]
  · exact inv_textStored hn h hroom
  · exact inv_textDone hn h hs hlen

theorem TickEffect.inv {s t : State} (he : TickEffect s t) (h : Inv s) : Inv t := by
  cases he with
  | idle => exact inv_ticked h
  | text _ hs => exact inv_infoStep (inv_ticked h) hs
  | frame q p rest _ _ hr he =>
    exact he.inv (inv_shorter h (by rw [hr, List.length_append]; omega))
  | timer _ he => exact he.inv h

/-! ### The other inputs -/

theorem inv_startHandshake {s : State} (h : Inv s) (hv : classify s.openCfg.version = .data) :
    Inv (startHandshake s) :=
  { h with
    pair := rfl
    attempts := Nat.zero_le _
    sentOnlyThere := nofun
    sentIsThere := nothing_outstanding_needed nofun nofun nofun
    sentRecord := nofun
    clear := fun _ => ⟨rfl, rfl⟩
    version := fun _ => hv
    infoBound := Nat.zero_le _
    infoRoom := nofun }

theorem inv_sendApp {s : State} {p : I16} (h : Inv s) (hp : s.phase = .opened)
    (hd : classify p = .data) : Inv (sendApp p s) :=
  { h with
    pair := by simp [hp, legalPair]
    sentOnlyThere := fun _ => rfl
    sentIsThere := fun _ => rfl
    sentRecord := fun _ => ⟨rfl, hd⟩
    clear := nofun
    txFrames := whole_frames_append h.txFrames _ _
    infoRoom := nofun }

/-- What an operation returns is no part of the invariant. -/
theorem inv_result {s : State} (r : Result) (h : Inv s) : Inv { s with result := r } := { h with }

/-- A host operation that completes keeps the invariant. A frame row does not: its bytes come on top of
the receive buffer. -/
theorem exec_keeps_inv {i : Instr} {s t : State} (h : Inv s) (hf : i.format = .hostcmd)
    (he : exec i s = .next t) : Inv t := by
  cases exec_effect he with
  | tick he => exact he.inv h
  | row _ _ hrow => rw [hrow] at hf; cases hf
  | openSession _ hv => exact inv_startHandshake h hv
  | send p hp _ hd => exact inv_result _ (inv_sendApp h hp hd)
  | read => exact inv_result _ h

theorem inv_rxPush {s : State} (b : Byte) (h : Inv s) : Inv (rxPush b s) := by
  rw [rxPush_eq]
  split_ifs with hroom
  · exact { h with rxBound := by simpa using hroom }
  · exact { h with }

/-- The operands of an input are no part of the invariant. -/
theorem inv_latched {s : State} (now : U32) (cfg : Cfg) (rest : List Input) (h : Inv s) :
    Inv { s with inbox := rest, now := now, openCfg := cfg } :=
  { h with }

/-- Settles O44: a step is idle, a byte, or a host operation, since a host word decodes to no frame. -/
theorem stepKeepsTheInvariant : Obligations.StepKeepsTheInvariant := by
  intro s t h hstep
  rcases step_cases s with ⟨-, he⟩ | ⟨b, rest, -, he⟩ | ⟨_, _, _, _, _, -, -, he⟩ |
    ⟨w, now, cfg, rest, i, -, hd, he⟩ <;> rw [he] at hstep
  · cases hstep; exact h
  · cases hstep; exact inv_rxPush b (inv_latched s.now s.openCfg rest h)
  · cases hstep
  · obtain ⟨-, hf, -⟩ := decodeThenEncode .hostcmd w i hd
    exact exec_keeps_inv (inv_latched now cfg rest h) hf hstep

end Sys2Proof.Machine
end

