-- ==== Sys2Proof/Proofs/Checksum.lean ====
section
/-! PROOF. The values of the checksums (40_codec.md R104, 30_encoding.md R83): the sum of the codes of a
decimal string, its bounds, and why a checksum reply is always a `DATA` frame. -/

namespace Sys2Proof.Machine

open Sys2Proof

/-- The codes of the digits of `n`, added. -/
def digitCodeSum (n : Nat) : Nat := ((digits 5 n).map (48 + ·)).sum

/-- The digits of a number below 10^5 one by one, most significant first. -/
theorem digits_five_cases {n : Nat} (h : n < 10 ^ 5) :
    (n < 10 ∧ digits 5 n = [n]) ∨
    (10 ≤ n ∧ n < 100 ∧ digits 5 n = [n / 10, n % 10]) ∨
    (100 ≤ n ∧ n < 1000 ∧ digits 5 n = [n / 100, n / 10 % 10, n % 10]) ∨
    (1000 ≤ n ∧ n < 10000 ∧ digits 5 n = [n / 1000, n / 100 % 10, n / 10 % 10, n % 10]) ∨
    (10000 ≤ n ∧
      digits 5 n = [n / 10000, n / 1000 % 10, n / 100 % 10, n / 10 % 10, n % 10]) := by
  have h1 : n / 10 / 10 = n / 100 := Nat.div_div_eq_div_mul n 10 10
  have h2 : n / 100 / 10 = n / 1000 := Nat.div_div_eq_div_mul n 100 10
  have h3 : n / 1000 / 10 = n / 10000 := Nat.div_div_eq_div_mul n 1000 10
  simp only [digits, h1, h2, h3]
  split_ifs with h4 h5 h6 h7 h8
  · exact .inl ⟨h4, rfl⟩
  · exact .inr (.inl ⟨by omega, by omega, rfl⟩)
  · exact .inr (.inr (.inl ⟨by omega, by omega, rfl⟩))
  · exact .inr (.inr (.inr (.inl ⟨by omega, by omega, rfl⟩)))
  · exact .inr (.inr (.inr (.inr ⟨by omega, rfl⟩)))
  · omega

/-- Five digits of a number up to 32768 add up to at most 38: a first digit 3 leaves no four nines. -/
theorem five_digits_sum {d4 d3 d2 d1 d0 : Nat}
    (h : 10000 * d4 + 1000 * d3 + 100 * d2 + 10 * d1 + d0 ≤ 32768)
    (h3 : d3 < 10) (h2 : d2 < 10) (h1 : d1 < 10) (h0 : d0 < 10) :
    d4 + d3 + d2 + d1 + d0 ≤ 38 ∧
      (d4 + d3 + d2 + d1 + d0 = 38 ↔
        10000 * d4 + 1000 * d3 + 100 * d2 + 10 * d1 + d0 = 29999) := by
  have h4 : d4 ≤ 3 := by omega
  constructor <;> interval_cases d4 <;> omega

/-- At least one digit, and at most those of 29999. -/
theorem digitCodeSum_bounds {n : Nat} (h : n ≤ 32768) :
    48 ≤ digitCodeSum n ∧ digitCodeSum n ≤ 278 ∧ (digitCodeSum n = 278 ↔ n = 29999) := by
  unfold digitCodeSum
  rcases digits_five_cases (show n < 10 ^ 5 by omega) with ⟨h1, hd⟩ | ⟨h1, h2, hd⟩ |
    ⟨h1, h2, hd⟩ | ⟨h1, h2, hd⟩ | ⟨h1, hd⟩ <;> rw [hd] <;>
    simp only [List.map_cons, List.map_nil, List.sum_cons, List.sum_nil]
  case inr.inr.inr.inr =>
    have hn : 10000 * (n / 10000) + 1000 * (n / 1000 % 10) + 100 * (n / 100 % 10) +
        10 * (n / 10 % 10) + n % 10 = n := by omega
    have digit (k : Nat) : k % 10 < 10 := Nat.mod_lt k (by decide)
    have hsum := five_digits_sum (hn.trans_le h) (digit _) (digit _) (digit _) (digit _)
    rw [hn] at hsum
    omega
  all_goals omega

theorem magnitude_le (v : I16) : magnitude v ≤ 32768 := by
  have hlo := v.le_toInt
  have hhi := v.toInt_lt
  unfold magnitude
  omega

/-- The sum of a decimal string: 45 for the sign, and the digits. -/
theorem sum_decimalString (v : I16) :
    (decimalString v).sum = (if v.toInt < 0 then 45 else 0) + digitCodeSum (magnitude v) := by
  rw [decimalString, List.sum_append]
  split_ifs <;> rfl

theorem sum_decimalString_bounds (v : I16) :
    48 ≤ (decimalString v).sum ∧ (decimalString v).sum ≤ 323 ∧
      ((decimalString v).sum = 323 ↔ v.toInt = -29999) := by
  obtain ⟨hlo, hhi, hmax⟩ := digitCodeSum_bounds (magnitude_le v)
  rw [sum_decimalString]
  unfold magnitude at *
  split_ifs <;> omega

/-- The sum is far below the wrap, so the word reads as the sum itself. -/
theorem toInt_checksum (v : I16) : (checksum v).toInt = ((decimalString v).sum : Nat) := by
  obtain ⟨-, hhi, -⟩ := sum_decimalString_bounds v
  rw [checksum, BitVec.toInt_ofNat', Int.bmod_eq_of_le] <;> omega

/-- Settles O12: at most a sign and the digits of 29999. -/
theorem checksumLiesIn48To323 : Obligations.ChecksumLiesIn48To323 := by
  refine ⟨fun v => ?_, by decide⟩
  obtain ⟨hlo, hhi, hmax⟩ := sum_decimalString_bounds v
  rw [toInt_checksum]
  exact ⟨rfl, by omega, by omega, by omega⟩

/-- A text of bytes 255 and one more byte adds up to any number. -/
theorem checksumText_surjective (v : I16) : ∃ t : List Byte, checksumText t = v := by
  refine ⟨List.replicate (v.toNat / 255) 255 ++ [BitVec.ofNat 8 (v.toNat % 255)], ?_⟩
  have hsum : (List.map BitVec.toNat
      (List.replicate (v.toNat / 255) (255 : Byte) ++ [BitVec.ofNat 8 (v.toNat % 255)])).sum =
      v.toNat := by
    have hlast : (BitVec.ofNat 8 (v.toNat % 255)).toNat = v.toNat % 255 :=
      Nat.mod_eq_of_lt (by omega)
    have hbyte : (255 : Byte).toNat = 255 := rfl
    simp only [List.map_append, List.map_replicate, List.map_cons, List.map_nil, List.sum_append,
      List.sum_replicate, List.sum_cons, List.sum_nil, hlast, hbyte, smul_eq_mul]
    omega
  rw [checksumText, hsum, textTerm, Nat.add_zero, BitVec.ofNat_toNat, BitVec.setWidth_eq]

/-- Settles O13: no opcode value lies where the checksums lie (00_scope.md R10). -/
theorem checksumReplyIsNeverAnOpcode : Obligations.ChecksumReplyIsNeverAnOpcode := by
  refine ⟨fun v => (classify_eq_data_iff _).2 fun hmem => ?_, checksumText_surjective⟩
  obtain ⟨hlo, hhi, -⟩ := sum_decimalString_bounds v
  have hint := toInt_checksum v
  rcases opcodesMeetTheirConstraints.2 _ hmem with h | h <;> omega

end Sys2Proof.Machine
end

