-- ==== Sys2Proof/Proofs/Ticks.lean ====
section
/-! PROOF. What one operation takes in and sends out: the tracker and what a frame makes the engine
create (41_engine_core.md R117 to R121), a partial frame (R111), at most one frame in and one out
(R113, 20_memory.md R59), the status that tells when `SEND` is ready (70_reset_and_hazards.md R233), and
the closed engine (44_recovery.md R179, 70_reset_and_hazards.md R222). -/

namespace Sys2Proof.Machine

open Sys2Proof

/-! ### What a frame makes the engine emit -/

theorem holdOver_seq_txlog (s : State) :
    (holdOver s).seq = s.seq ∧ (holdOver s).txlog = s.txlog := by
  obtain ⟨st, ph, mark, h⟩ := holdOver_eq s
  rw [h]
  exact ⟨rfl, rfl⟩

theorem ackTaken_seq_txlog (q : I16) (s : State) :
    (ackTaken q s).seq = trackedSeq q s.seq ∧ (ackTaken q s).txlog = s.txlog := by
  obtain ⟨st, ph, mark, len, h⟩ := ackTaken_eq q s
  rw [h]
  exact ⟨rfl, rfl⟩

/-- After a dispatched frame either the counter is the tracked one and nothing is sent but a Signal
again, or one new frame took the tracked number. -/
theorem FrameEffect.emits {q p : I16} {s t : State} (h : FrameEffect q p s t) :
    (t.seq = trackedSeq q s.seq ∧
      (t.txlog = s.txlog ∨
        (s.state = .waitingForAsciiSum ∧
          t.txlog = s.txlog ++ encodeFrame s.lastSent.seq s.lastSent.payload))) ∨
      (t.seq = trackedSeq q s.seq + 1 ∧
        ∃ r : I16, t.txlog = s.txlog ++ encodeFrame (trackedSeq q s.seq) r) := by
  induction h with
  | versionSent | abf | data | confirmed => exact .inr ⟨rfl, _, rfl⟩
  | mismatch hs => exact .inl ⟨rfl, .inr ⟨hs, rfl⟩⟩
  | ack =>
    obtain ⟨hseq, hlog⟩ := ackTaken_seq_txlog q _
    exact .inl ⟨hseq, .inl hlog⟩
  | @afterHold s t _ _ _ _ ih =>
    obtain ⟨hseq, hlog⟩ := holdOver_seq_txlog s
    have hsum : (holdOver s).state ≠ .waitingForAsciiSum := by
      rcases holdOver_state s with ⟨hs, -⟩ | ⟨hs, -⟩ <;> simp [hs]
    rw [hseq, hlog] at ih
    exact ih.imp_left (And.imp_right fun h => .inl (h.resolve_right fun h' => hsum h'.1))
  | _ => exact .inl ⟨rfl, .inl rfl⟩

/-- Settles O19: a frame row that is dispatched has one of the effects of a frame. -/
theorem parsedFramesAreTracked : Obligations.ParsedFramesAreTracked := by
  intro s t i q p hi hp hs he
  rw [exec_frameRow hi] at he
  rcases meetFrame_effect he with ⟨hclosed, -⟩ | ⟨-, hwait, -⟩ | ⟨-, -, heffect⟩
  · exact absurd hclosed hp
  · exact absurd hwait hs
  · exact heffect.emits

/-! ### A tick without a frame -/

theorem TimerEffect.keepsReceived {s t : State} (h : TimerEffect s t) :
    t.lastRecv = s.lastRecv ∧ t.infoLen = s.infoLen := by
  cases h with
  | abf c => rcases abfAttempt_cases c s with ⟨-, h⟩ | ⟨-, h⟩ <;> rw [h] <;> exact ⟨rfl, rfl⟩
  | hold =>
    obtain ⟨st, ph, mark, h⟩ := holdOver_eq (ticked s)
    rw [h]
    exact ⟨rfl, rfl⟩
  | _ => exact ⟨rfl, rfl⟩

/-- Settles O20: the tick tests a timer, and no timer touches what was received. -/
theorem partialFrameIsLeftInPlace : Obligations.PartialFrameIsLeftInPlace := by
  intro s hn
  have heffect := timerStep_effect s
  have hkept := heffect.keepsStores
  obtain ⟨hrecv, hlen⟩ := heffect.keepsReceived
  exact ⟨_, exec_tick_noFrame hn, hkept.rxbuf, hrecv, hkept.cfg, hkept.infoBuf, hlen⟩

/-! ### One frame in, one frame out -/

/-- At most one frame was sent from `s` to `t`. -/
def SendsAtMostOne (s t : State) : Prop :=
  t.txlog = s.txlog ∨ ∃ q p : I16, t.txlog = s.txlog ++ encodeFrame q p

theorem FrameEffect.sendsAtMostOne {q p : I16} {s t : State} (h : FrameEffect q p s t) :
    SendsAtMostOne s t := by
  rcases h.emits with ⟨-, h | ⟨-, h⟩⟩ | ⟨-, r, h⟩
  · exact .inl h
  · exact .inr ⟨_, _, h⟩
  · exact .inr ⟨_, _, h⟩

theorem TimerEffect.sendsAtMostOne {s t : State} (h : TimerEffect s t) : SendsAtMostOne s t := by
  cases h with
  | abf c =>
    rcases abfAttempt_cases c s with ⟨-, h⟩ | ⟨-, h⟩ <;> rw [h]
    · exact .inl rfl
    · exact .inr ⟨_, _, rfl⟩
  | hold => exact .inl (holdOver_seq_txlog _).2
  | refresh => exact .inr ⟨_, _, rfl⟩
  | _ => exact .inl rfl

/-- A read of text takes at most `INFO_MAX` bytes, also where the length is out of range. -/
theorem readInfo_rest (s : State) :
    ∃ n, n ≤ s.params.infoMax ∧ (readInfo s).rest = s.rxbuf.drop n := by
  unfold readInfo
  split
  · exact ⟨_, min_le_right _ _, rfl⟩
  · by_cases hlen : s.infoLen ≤ s.params.infoMax
    · obtain ⟨-, -, n, hn, hrest, -⟩ :=
        readUntilNul_bounds s.params.infoMax s.rxbuf s.infoBuf s.infoLen hlen
      exact ⟨n, hn.trans (Nat.sub_le _ _), hrest⟩
    · refine ⟨0, Nat.zero_le _, ?_⟩
      rcases s.rxbuf with _ | ⟨b, bs⟩
      · rfl
      · simp [readUntilNul, show ¬ s.infoLen < s.params.infoMax by omega]

theorem infoStep_rxbuf (s : State) : (infoStep s).rxbuf = (readInfo s).rest := by
  rw [infoStep_eq]
  split_ifs <;> rfl

theorem infoStep_sendsAtMostOne (s : State) : SendsAtMostOne s (infoStep s) := by
  rw [infoStep_eq]
  split_ifs
  · exact .inr ⟨_, _, rfl⟩
  · exact .inl rfl

theorem TickEffect.sendsAtMostOne {s t : State} (h : TickEffect s t) : SendsAtMostOne s t := by
  cases h with
  | idle => exact .inl rfl
  | text => exact infoStep_sendsAtMostOne (ticked s)
  | frame q p rest _ _ _ h => exact h.sendsAtMostOne
  | timer _ h => exact h.sendsAtMostOne

/-- What a tick takes off the receive buffer: nothing, one frame, or text. -/
theorem TickEffect.takes {s t : State} (h : TickEffect s t) :
    t.rxbuf = s.rxbuf ∨ (t.rxbuf = s.rxbuf.drop 4 ∧ 4 ≤ s.rxbuf.length) ∨
      (s.state = .waitingForInfoMessage ∧ ∃ n, n ≤ s.params.infoMax ∧ t.rxbuf = s.rxbuf.drop n) := by
  cases h with
  | idle => exact .inl rfl
  | text _ hs =>
    obtain ⟨n, hn, hrest⟩ := readInfo_rest (ticked s)
    exact .inr (.inr ⟨hs, n, hn, (infoStep_rxbuf _).trans hrest⟩)
  | frame q p rest _ _ hr h =>
    refine .inr (.inl ⟨?_, ?_⟩)
    · rw [h.keepsStores.rxbuf, hr]; rfl
    · rw [hr, List.length_append, encodeFrame_length]; omega
  | timer _ h => exact .inl h.keepsStores.rxbuf

/-- Settles O21: only a tick reads, and each host operation sends at most one frame. -/
theorem oneFrameInAndOneOutPerOperation : Obligations.OneFrameInAndOneOutPerOperation := by
  intro s t i hf he
  cases exec_effect he with
  | tick h => exact ⟨h.takes.imp_right (Or.imp (⟨rfl, ·⟩) (⟨rfl, ·⟩)), h.sendsAtMostOne⟩
  | row _ _ hrow => rw [hrow] at hf; cases hf
  | openSession => exact ⟨.inl rfl, .inl rfl⟩
  | send p => exact ⟨.inl rfl, .inr ⟨_, _, rfl⟩⟩
  | read => exact ⟨.inl rfl, .inl rfl⟩

/-! ### The status that tells when `SEND` is ready -/

/-- Bits 6:0 of the status are the codes of the phase and the state (41_engine_core.md R135). -/
theorem toNat_statusWord_mod (s : State) :
    (statusWord s).toNat % 2 ^ 7 = s.phase.code.toNat * 2 ^ 4 + s.state.code.toNat := by
  have hph := s.phase.code.isLt
  have hst := s.state.code.isLt
  rw [toNat_statusWord]
  split_ifs <;> omega

/-- The two codes are those of an open session between exchanges in no other state. -/
theorem codes_eq_ready_iff (ph : Phase) (st : EngineState) :
    ph.code.toNat * 2 ^ 4 + st.code.toNat = 0x41 ↔ ph = .opened ∧ st = .okContinue := by
  cases ph <;> cases st <;> decide

/-- Settles O26: the status carries both codes, and the read leaves the state that `SEND` tests. -/
theorem statusTellsWhenSendIsReady : Obligations.StatusTellsWhenSendIsReady := by
  intro s t w he hw
  obtain rfl : ({ s with result := .status (statusWord s) } : State) = t := Host.Outcome.next.inj he
  obtain rfl : statusWord s = w := Result.status.inj hw
  have hready : (statusWord s).toNat % 2 ^ 7 = 0x41 ↔ s.phase = .opened ∧ s.state = .okContinue := by
    rw [toNat_statusWord_mod, codes_eq_ready_iff]
  refine ⟨hready, fun h p hd => ?_⟩
  obtain ⟨hp, hs⟩ := hready.1 h
  exact ⟨_, (sendEmitsAnApplicationSignal _ p).1 hp hs hd⟩

/-! ### The closed engine -/

/-- Settles O47: a tick is idle, `SEND` fails its first check, a frame row is the idle tick of a longer
buffer, and the reads write their result alone. -/
theorem closedEngineIsInert : Obligations.ClosedEngineIsInert := by
  intro s hp
  refine ⟨exec_tick_closed hp, fun p => exec_send_notReady (.inl (by simp [hp])), fun i t he hi => ?_⟩
  cases exec_effect he with
  | tick h =>
    obtain rfl := Host.Outcome.next.inj ((exec_tick_closed hp).symm.trans he)
    exact ⟨hp, rfl, rfl⟩
  | row q p hf hrow h =>
    cases h with
    | idle => exact ⟨hp, rfl, rfl⟩
    | text hp' => exact absurd hp hp'
    | frame _ _ _ hp' => exact absurd hp hp'
    | timer hn => exact absurd hp hn.1
  | openSession => exact absurd rfl hi
  | send p hp' => exact absurd (hp.symm.trans hp') nofun
  | read => exact ⟨hp, rfl, rfl⟩

/-- Settles O42: the engine is closed at reset, no frame was received, and the status is the code of
`CONNECTION_CLOSED`. -/
theorem inertAfterReset : Obligations.InertAfterReset :=
  ⟨exec_tick_closed rfl, fun _ => exec_send_notReady (.inl nofun), rfl, rfl, rfl⟩

end Sys2Proof.Machine
end

