-- ==== Sys2Proof/Proofs/InfoText.lean ====
section
/-! PROOF. The info message (43_steady_state.md R160) and its store (10_state.md R34). -/

namespace Sys2Proof.Machine

open Sys2Proof

/-! ### The reading loop of `NUL_TERMINATED` -/

/-- A full buffer takes nothing. -/
theorem readUntilNul_full (max : Nat) (bs : List Byte) (m : Memory) :
    readUntilNul max bs m max = { rest := bs, buf := m, len := max, done := false } := by
  cases bs <;> simp [readUntilNul]

/-- The loop takes the first 0x00, which fits, and stops. -/
theorem readUntilNul_terminated {max len : Nat} {pre : List Byte} (rest : List Byte) (m : Memory)
    (h0 : 0 ∉ pre) (hlen : len + pre.length < max) :
    readUntilNul max (pre ++ 0 :: rest) m len =
      { rest := rest, buf := Memory.writeRun m len (pre ++ [0]), len := len + pre.length + 1,
        done := true } := by
  rw [readUntilNul_append _ _ _ _ _ h0 hlen.le, Memory.writeRun_append]
  simp [readUntilNul, hlen, Memory.writeRun]

/-- A full buffer ends the message as a 0x00 does. -/
def InfoRead.orFull (max : Nat) (r : InfoRead) : InfoRead :=
  { r with done := r.done || decide (r.len = max) }

theorem readInfo_nulTerminated {s : State} (hf : s.params.infoFraming = .nulTerminated) :
    readInfo s =
      (readUntilNul s.params.infoMax s.rxbuf s.infoBuf s.infoLen).orFull s.params.infoMax := by
  simp only [readInfo, hf, InfoRead.orFull]

/-! ### A read by what it leaves -/

theorem infoStep_of_done {s : State} {rest : List Byte} {buf : Memory} {len : Nat}
    (h : readInfo (ticked s) = { rest := rest, buf := buf, len := len, done := true }) :
    infoStep (ticked s) = textAnswered rest buf len s := by
  rw [infoStep_eq, h, if_pos rfl, infoDone_eq]
  rfl

theorem infoStep_of_not_done {s : State} {rest : List Byte} {buf : Memory} {len : Nat}
    (h : readInfo (ticked s) = { rest := rest, buf := buf, len := len, done := false }) :
    infoStep (ticked s) = { ticked s with rxbuf := rest, infoBuf := buf, infoLen := len } := by
  rw [infoStep_eq, h, if_neg Bool.false_ne_true]

/-- Settles O38: the bytes before the first 0x00 are all taken; then the loop meets the 0x00, a full
buffer, or the end of what has arrived. -/
theorem nulTerminatedText : Obligations.NulTerminatedText := by
  intro s pre hp hs hf h0
  have hread : readInfo (ticked s) =
      (readUntilNul s.params.infoMax s.rxbuf s.infoBuf s.infoLen).orFull s.params.infoMax :=
    readInfo_nulTerminated (s := ticked s) hf
  refine ⟨fun rest hr hlen => ?_, fun rest hr hne hlen => ?_, fun hr hlen => ?_⟩
  · rw [hr, readUntilNul_terminated rest _ h0 hlen] at hread
    rw [exec_tick_text hp hs (by simp [hr])]
    exact congrArg _ (infoStep_of_done hread)
  · rw [hr, readUntilNul_append _ _ _ _ _ h0 hlen.le, hlen, readUntilNul_full] at hread
    rw [exec_tick_text hp hs (by simp [hr, hne])]
    exact congrArg _ (infoStep_of_done (by simpa [InfoRead.orFull] using hread))
  · by_cases hne : pre = []
    · subst hne
      rw [exec_tick_noText hp hs hr]
      simp [ticked, hr, Memory.writeRun]
    · have happ := readUntilNul_append s.params.infoMax pre [] s.infoBuf s.infoLen h0 hlen.le
      rw [List.append_nil] at happ
      rw [hr, happ] at hread
      rw [exec_tick_text hp hs (by simp [hr, hne])]
      exact congrArg _ (infoStep_of_not_done (by
        simpa [InfoRead.orFull, readUntilNul, hlen.ne] using hread))

/-! ### `AVAILABLE` -/

theorem readInfo_available {s : State} (hf : s.params.infoFraming = .available) :
    readInfo s =
      { rest := s.rxbuf.drop s.params.infoMax
        buf := Memory.writeRun s.infoBuf 0 (s.rxbuf.take s.params.infoMax)
        len := min s.rxbuf.length s.params.infoMax, done := true } := by
  have hdrop : s.rxbuf.drop (min s.rxbuf.length s.params.infoMax) =
      s.rxbuf.drop s.params.infoMax := by
    rcases Nat.le_total s.rxbuf.length s.params.infoMax with h | h
    · rw [min_eq_left h, List.drop_length, List.drop_eq_nil_of_le h]
    · rw [min_eq_right h]
  have htake : s.rxbuf.take (min s.rxbuf.length s.params.infoMax) =
      s.rxbuf.take s.params.infoMax := by
    rw [min_comm, List.take_eq_take_min.symm]
  simp only [readInfo, hf, rxCount, hdrop, htake]

/-- Settles O39: the read is always complete. -/
theorem availableText : Obligations.AvailableText := by
  intro s hp hs hf hr
  rw [exec_tick_text hp hs hr, infoStep_of_done (readInfo_available (s := ticked s) hf)]
  rfl

/-! ### The store -/

/-- A run is read back where it was written, and other bytes keep their values. -/
theorem read_writeRun {m : Memory} (hm : Memory.wf m = true) (n : Nat) (bs : List Byte) (k : Nat) :
    Memory.read (Memory.writeRun m n bs) k =
      if n ≤ k then bs.getD (k - n) (Memory.read m k) else Memory.read m k := by
  induction bs generalizing m n with
  | nil => simp [Memory.writeRun]
  | cons b bs ih =>
    rw [Memory.writeRun, ih (Memory.wf_write m n b hm), Memory.read_write m n b k hm]
    rcases Nat.lt_trichotomy k n with h | rfl | h
    · simp [show ¬ n ≤ k by omega, show ¬ n + 1 ≤ k by omega, h.ne]
    · simp
    · have hk : k - n = (k - (n + 1)) + 1 := by omega
      simp [show n ≤ k by omega, show n + 1 ≤ k by omega, h.ne', hk]

/-- Settles O40: the laws of one write, and a run from 0 is its own text. -/
theorem infoBufferReadsBack : Obligations.InfoBufferReadsBack := by
  intro m hm
  refine ⟨fun n v k => ⟨Memory.wf_write m n v hm, Memory.read_write m n v k hm⟩, fun bs => ?_⟩
  apply List.ext_getElem
  · simp [Memory.text]
  · intro k h1 h2
    simp [Memory.text, read_writeRun hm, h2]

end Sys2Proof.Machine
end

