-- ==== Sys2Proof/Proofs/Safety.lean ====
section
/-! PROOF. Safety: who can fault (60_exceptions.md R204, R205), how the phase moves (42_handshake.md R140
to R146), what a close and an opening return (44_recovery.md R175), who writes `CFG` and `LAST_RECV`
(10_state.md R27, R32), and stop and wait (R37). -/

namespace Sys2Proof.Machine

open Sys2Proof

/-! ### The duty of the host -/

/-- At a pair the invariant allows every frame completes, also in the states that take no frame. -/
theorem meetFrame_completes_of_inv {s : State} (f : Frame) (h : Inv s) :
    ∃ t, meetFrame f s = .next t := by
  by_cases hp : s.phase = .notOpen
  · exact ⟨_, meetFrame_closed f s hp⟩
  by_cases hs : s.state = .waitingForInfoMessage
  · exact ⟨_, meetFrame_info f s hp hs⟩
  · exact meetFrame_completes f h.pair hp hs

theorem exec_openSession_fault {s : State}
    (h : ¬ (s.phase = .notOpen ∧ classify s.openCfg.version = .data)) :
    ∃ f, exec .openSession s = .fault f ∧ f ∈ [Fault.openWhileActive, .badConfig] := by
  obtain ⟨-, hactive, hbad⟩ := openStartsAHandshake s
  by_cases hp : s.phase = .notOpen
  · exact ⟨_, hbad hp fun hv => h ⟨hp, hv⟩, by simp⟩
  · exact ⟨_, hactive hp, by simp⟩

theorem exec_send_fault {s : State} {p : I16}
    (h : ¬ (s.phase = .opened ∧ s.state = .okContinue ∧ classify p = .data)) :
    ∃ f, exec (.send p) s = .fault f ∧ f ∈ [Fault.sendNotReady, .sendReservedPayload] := by
  obtain ⟨-, hready, hreserved⟩ := sendEmitsAnApplicationSignal s p
  by_cases hps : s.phase = .opened ∧ s.state = .okContinue
  · exact ⟨_, hreserved hps.1 hps.2 fun hd => h ⟨hps.1, hps.2, hd⟩, by simp⟩
  · exact ⟨_, hready (not_and_or.1 hps), by simp⟩

/-- Settles O45: frames and ticks complete by the invariant, the reads in every state, and the two
operations with a duty check it. -/
theorem onlyTheHostCanFault : Obligations.OnlyTheHostCanFault := by
  intro s i h
  cases i with
  | tick =>
    obtain ⟨t, -, ht, -⟩ := tickAlwaysReturnsAnEvent s h
    exact ⟨fun _ => ⟨t, ht⟩, fun hd => absurd trivial hd⟩
  | openSession =>
    refine ⟨fun ⟨hp, hv⟩ => ⟨_, (openStartsAHandshake s).1 hp hv⟩, fun hd => ?_⟩
    obtain ⟨f, hf, hmem⟩ := exec_openSession_fault hd
    exact ⟨f, hf, List.mem_cons_of_mem _ (List.mem_cons_of_mem _ hmem)⟩
  | send p =>
    refine ⟨fun ⟨hp, hs, hd⟩ => ⟨_, (sendEmitsAnApplicationSignal s p).1 hp hs hd⟩, fun hd => ?_⟩
    obtain ⟨f, hf, hmem⟩ := exec_send_fault hd
    exact ⟨f, hf, List.mem_append_left _ hmem⟩
  | readLast | isOpen | readStatus => exact ⟨fun _ => ⟨_, rfl⟩, fun hd => absurd trivial hd⟩
  | _ => exact ⟨fun _ => meetFrame_completes_of_inv _ h, fun hd => absurd trivial hd⟩

/-! ### The phase -/

/-- How the phase can move under a tick. -/
def PhaseMoves (ph ph' : Phase) : Prop :=
  ph' = ph ∨
  (ph = .hsWaitSoh ∧ ph' = .hsVersion) ∨
  (ph = .hsVersion ∧ (ph' = .hsWaitEtx ∨ ph' = .opened ∨ ph' = .notOpen)) ∨
  (ph = .hsWaitEtx ∧ (ph' = .opened ∨ ph' = .notOpen)) ∨
  (ph = .opened ∧ ph' = .notOpen)

theorem exchangeDone_phase (s : State) :
    (exchangeDone s).phase = s.phase ∨
      (s.phase = .hsVersion ∧ (exchangeDone s).phase = .hsWaitEtx) := by
  by_cases hp : s.phase = .hsVersion
  · exact .inr ⟨hp, by rw [exchangeDone_version hp]⟩
  · exact .inl (by rw [exchangeDone_session hp])

theorem holdOver_phase (s : State) :
    (holdOver s).phase = s.phase ∨ (s.phase = .hsVersion ∧ (holdOver s).phase = .hsWaitEtx) :=
  exchangeDone_phase _

theorem ackTaken_phase (q : I16) (s : State) :
    (ackTaken q s).phase = s.phase ∨
      (s.phase = .hsVersion ∧ (ackTaken q s).phase = .hsWaitEtx) := by
  unfold ackTaken
  split
  · exact .inl rfl
  · exact exchangeDone_phase _
  · exact exchangeDone_phase _

theorem PhaseMoves.to_etxWait {ph ph' : Phase}
    (h : ph' = ph ∨ (ph = .hsVersion ∧ ph' = .hsWaitEtx)) : PhaseMoves ph ph' :=
  h.imp_right fun ⟨h1, h2⟩ => .inr (.inl ⟨h1, .inl h2⟩)

/-- From the `ETX` wait that ends the `VERSION` exchange, a frame goes where that exchange may go. -/
theorem PhaseMoves.through_hold {ph ph' ph'' : Phase} (h : PhaseMoves ph' ph'')
    (hold : ph' = ph ∨ (ph = .hsVersion ∧ ph' = .hsWaitEtx)) : PhaseMoves ph ph'' := by
  rcases hold with rfl | ⟨rfl, rfl⟩
  · exact h
  · rcases h with rfl | ⟨h, -⟩ | ⟨h, -⟩ | ⟨-, h⟩ | ⟨h, -⟩
    · exact .inr (.inr (.inl ⟨rfl, .inl rfl⟩))
    · cases h
    · cases h
    · exact .inr (.inr (.inl ⟨rfl, .inr h⟩))
    · cases h

theorem FrameEffect.phaseMoves {q p : I16} {s t : State} (h : FrameEffect q p s t) :
    PhaseMoves s.phase t.phase := by
  induction h with
  | versionSent _ hp => exact .inr (.inl ⟨hp, rfl⟩)
  | opened _ hp => exact .inr (.inr (.inr (.inl ⟨hp, .inl rfl⟩)))
  | rejected _ hp => exact .inr (.inr (.inr (.inl ⟨hp, .inr rfl⟩)))
  | ack => exact .to_etxWait (ackTaken_phase q _)
  | afterHold _ _ _ _ ih => exact ih.through_hold (holdOver_phase _)
  | _ => exact .inl rfl

theorem TimerEffect.phaseMoves {s t : State} (h : TimerEffect s t)
    (hpair : legalPair s.state s.phase = true) : PhaseMoves s.phase t.phase := by
  cases h with
  | abf c hs =>
    rcases abfAttempt_cases c s with ⟨-, he⟩ | ⟨-, he⟩ <;> rw [he]
    · have hph : s.phase = .hsVersion ∨ s.phase = .opened := by
        rcases hs with hs | hs | hs <;>
          exact phase_of_legalPair hpair (by simp [hs]) (by simp [hs])
      rcases hph with hp | hp
      · exact .inr (.inr (.inl ⟨hp, .inr (.inr rfl)⟩))
      · exact .inr (.inr (.inr (.inr ⟨hp, rfl⟩)))
    · exact .inl rfl
  | etx _ hp => exact .inr (.inr (.inr (.inl ⟨hp, .inr rfl⟩)))
  | hold => exact .to_etxWait (holdOver_phase _)
  | _ => exact .inl rfl

/-- A read of text writes the store and, where the text is complete, what its answer writes. -/
theorem infoStep_eq_stored (s : State) : ∃ st ctx q log mark,
    infoStep s = { s with rxbuf := (readInfo s).rest, infoBuf := (readInfo s).buf,
                          infoLen := (readInfo s).len, state := st, ackCtx := ctx, seq := q,
                          txlog := log, tMark := mark } := by
  rw [infoStep_eq]
  split_ifs
  · exact ⟨_, _, _, _, _, infoDone_eq _⟩
  · exact ⟨s.state, s.ackCtx, s.seq, s.txlog, s.tMark, rfl⟩

theorem infoStep_phase (s : State) : (infoStep s).phase = s.phase := by
  obtain ⟨st, ctx, q, log, mark, h⟩ := infoStep_eq_stored s
  rw [h]

theorem TickEffect.phaseMoves {s t : State} (h : TickEffect s t)
    (hpair : legalPair s.state s.phase = true) : PhaseMoves s.phase t.phase := by
  cases h with
  | idle => exact .inl rfl
  | text => exact .inl (infoStep_phase _)
  | frame _ _ _ _ _ _ h => exact h.phaseMoves
  | timer _ h => exact h.phaseMoves hpair

/-- Settles O50: a tick moves the phase as `PhaseMoves` says, and of the other operations only `OPEN`
moves it. -/
theorem phaseFollowsTheHandshake : Obligations.PhaseFollowsTheHandshake := by
  intro s t i h he
  suffices hmoves : PhaseMoves s.phase t.phase ∨
      (i = .openSession ∧ s.phase = .notOpen ∧ t.phase = .hsWaitSoh) by
    rcases hmoves with hmoves | hopen
    · exact Or.imp_right Or.inr hmoves
    · exact .inr (.inl hopen)
  cases exec_effect he with
  | tick he => exact .inl (he.phaseMoves h.pair)
  | row q p _ _ he => exact .inl (he.phaseMoves h.pair)
  | openSession hp => exact .inr ⟨rfl, hp, rfl⟩
  | send => exact .inl (.inl rfl)
  | read => exact .inl (.inl rfl)

/-! ### Closing -/

/-- What a close leaves behind (44_recovery.md R175). -/
def ClosedFrom (s t : State) : Prop :=
  t.state = .connectionClosed ∧ t.txlog = s.txlog ∧ t.lastRecv = s.lastRecv ∧
    (t.abfCount = s.abfCount ∨ s.state = .inAckTimeoutBuffer ∧ t.abfCount = 0) ∧
    t.result = .event (if s.phase = .opened then .connectionClosed else .handshakeFailed)

theorem closedAfter_closedFrom (cs : List Condition) (s : State) : ClosedFrom s (closedAfter cs s) :=
  ⟨rfl, rfl, rfl, .inl rfl, rfl⟩

theorem ne_notOpen_of_moves {ph ph' : Phase} (hp : ph ≠ .notOpen)
    (h : ph' = ph ∨ (ph = .hsVersion ∧ ph' = .hsWaitEtx)) : ph' ≠ .notOpen := by
  rcases h with rfl | ⟨-, rfl⟩
  · exact hp
  · exact nofun

/-- A hold that ends first clears the attempt counter and keeps the rest of the record. -/
theorem ClosedFrom.of_holdOver {s t : State} (hs : s.state = .inAckTimeoutBuffer)
    (h : ClosedFrom (holdOver s) t) : ClosedFrom s t := by
  obtain ⟨hstate, hlog, hrecv, hcount, hres⟩ := h
  have hopened : (holdOver s).phase = .opened ↔ s.phase = .opened := by
    rcases holdOver_phase s with hp | ⟨hp, hp'⟩
    · rw [hp]
    · simp [hp, hp']
  obtain ⟨st, ph, mark, he⟩ := holdOver_eq s
  have hzero : t.abfCount = 0 := hcount.elim (fun h => h.trans (by rw [he])) And.right
  rw [he] at hlog hrecv
  exact ⟨hstate, hlog, hrecv, .inr ⟨hs, hzero⟩, by rw [hres]; simp only [hopened]⟩

theorem FrameEffect.closedFrom {q p : I16} {s t : State} (h : FrameEffect q p s t)
    (hp : s.phase ≠ .notOpen) (ht : t.phase = .notOpen) : ClosedFrom s t := by
  induction h with
  | versionSent | opened => cases ht
  | rejected => exact closedAfter_closedFrom _ (tracked q _)
  | ack => exact absurd ht (ne_notOpen_of_moves hp (ackTaken_phase q _))
  | afterHold hs _ _ _ ih => exact (ih (holdOver_phase_ne_notOpen hp) ht).of_holdOver hs
  | _ => exact absurd ht hp

theorem TimerEffect.closedFrom {s t : State} (h : TimerEffect s t) (hp : s.phase ≠ .notOpen)
    (ht : t.phase = .notOpen) : ClosedFrom s t := by
  cases h with
  | abf c =>
    rcases abfAttempt_cases c s with ⟨-, he⟩ | ⟨-, he⟩ <;> rw [he] at ht ⊢
    · exact closedAfter_closedFrom _ s
    · exact absurd ht hp
  | etx => exact closedAfter_closedFrom _ (ticked s)
  | hold => exact absurd ht (holdOver_phase_ne_notOpen hp)
  | _ => exact absurd ht hp

theorem TickEffect.closedFrom {s t : State} (h : TickEffect s t) (hp : s.phase ≠ .notOpen)
    (ht : t.phase = .notOpen) : ClosedFrom s t := by
  cases h with
  | idle => exact absurd ht hp
  | text => exact absurd ((infoStep_phase _).symm.trans ht) hp
  | frame _ _ _ _ _ _ h => exact h.closedFrom hp ht
  | timer _ h => exact h.closedFrom hp ht

/-- Settles O48: of all effects only those that enter the closed state end in it. -/
theorem closingReturnsItsEvent : Obligations.ClosingReturnsItsEvent := by
  intro s t i _ he hp ht
  cases exec_effect he with
  | tick h => exact h.closedFrom hp ht
  | row _ _ _ _ h => exact h.closedFrom hp ht
  | openSession => cases ht
  | send => exact absurd ht hp
  | read => exact absurd ht hp

/-! ### Opening -/

/-- What an opening leaves (42_handshake.md R144). -/
def OpenedFrom (s t : State) : Prop :=
  t.state = .okContinue ∧ t.result = .event .handshakeOk ∧ t.txlog = s.txlog

theorem ne_opened_of_moves {ph ph' : Phase} (hp : ph ≠ .opened)
    (h : ph' = ph ∨ (ph = .hsVersion ∧ ph' = .hsWaitEtx)) : ph' ≠ .opened := by
  rcases h with rfl | ⟨-, rfl⟩
  · exact hp
  · exact nofun

/-- Only `ETX` opens. -/
theorem FrameEffect.openedFrom {q p : I16} {s t : State} (h : FrameEffect q p s t)
    (hp : s.phase ≠ .opened) (ht : t.phase = .opened) : p = 0x0003 ∧ OpenedFrom s t := by
  induction h with
  | versionSent | rejected => cases ht
  | opened _ _ hetx => exact ⟨hetx, rfl, rfl, rfl⟩
  | ack => exact absurd ht (ne_opened_of_moves hp (ackTaken_phase q _))
  | @afterHold s t _ _ _ _ ih =>
    obtain ⟨hetx, hstate, hres, hlog⟩ := ih (ne_opened_of_moves hp (holdOver_phase s)) ht
    exact ⟨hetx, hstate, hres, hlog.trans (holdOver_seq_txlog s).2⟩
  | _ => exact absurd ht hp

theorem TimerEffect.phase_ne_opened {s t : State} (h : TimerEffect s t) (hp : s.phase ≠ .opened) :
    t.phase ≠ .opened := by
  cases h with
  | abf c =>
    rcases abfAttempt_cases c s with ⟨-, he⟩ | ⟨-, he⟩ <;> rw [he]
    · exact nofun
    · exact hp
  | etx => exact nofun
  | hold => exact ne_opened_of_moves hp (holdOver_phase _)
  | _ => exact hp

theorem TickEffect.openedFrom {s t : State} (h : TickEffect s t) (hp : s.phase ≠ .opened)
    (ht : t.phase = .opened) : OpenedFrom s t ∧ s.rxbuf.take 2 = [0x00, 0x03] := by
  cases h with
  | idle => exact absurd ht hp
  | text => exact absurd ((infoStep_phase _).symm.trans ht) hp
  | frame q p rest _ _ hr h =>
    obtain ⟨rfl, hopened⟩ := h.openedFrom hp ht
    exact ⟨hopened, by rw [hr]; rfl⟩
  | timer _ h => exact absurd ht (h.phase_ne_opened hp)

/-- The first two bytes of a frame are its payload. -/
theorem payload_of_take_two {q p : I16} {rest : List Byte} {b0 b1 : Byte}
    (h : (encodeFrame q p ++ rest).take 2 = [b0, b1]) : p = b0 ++ b1 := by
  have hp : p.extractLsb' 8 8 ++ p.extractLsb' 0 8 = p :=
    congrArg Frame.payload (frameOfBytes_encodeFrame q p)
  obtain ⟨h0, h1⟩ : p.extractLsb' 8 8 = b0 ∧ p.extractLsb' 0 8 = b1 := by
    simpa [encodeFrame] using h
  rw [← hp, h0, h1]

theorem etx_of_frameRow {i : Instr} {q : I16} (h : FrameRow i q 0x0003) : i = .etx q := by
  rcases h with ⟨-, h⟩ | ⟨-, h⟩ | ⟨h, -⟩ | ⟨-, h⟩ | ⟨-, h⟩ | ⟨-, h⟩ | ⟨-, h⟩ | ⟨rfl, h⟩
  case inr.inr.inl => exact h
  case inr.inr.inr.inr.inr.inr.inr => exact absurd ((wellFormed_data_iff _ _).1 h) (by decide)
  all_goals exact absurd h (by decide)

/-- Settles O49: a tick that opens met `ETX` as its frame, and the row of that frame is `ETX`. -/
theorem openingReturnsHandshakeOk : Obligations.OpeningReturnsHandshakeOk := by
  intro s t i hw he hp ht
  cases exec_effect he with
  | tick h =>
    obtain ⟨⟨hstate, hres, hlog⟩, hbytes⟩ := h.openedFrom hp ht
    exact ⟨hstate, hres, hlog, .inl ⟨rfl, hbytes⟩⟩
  | row q p _ hi h =>
    obtain ⟨⟨hstate, hres, hlog⟩, hbytes⟩ := h.openedFrom hp ht
    obtain rfl : p = 0x0003 := payload_of_take_two hbytes
    exact ⟨hstate, hres, hlog, .inr ⟨q, etx_of_frameRow (hi hw)⟩⟩
  | openSession => cases ht
  | send => exact absurd ht hp
  | read => exact absurd ht hp

/-! ### Who writes `CFG` and `LAST_RECV` -/

theorem TickEffect.keepsCfg {s t : State} (h : TickEffect s t) :
    t.params = s.params ∧ t.cfg = s.cfg := by
  cases h with
  | idle => exact ⟨rfl, rfl⟩
  | text =>
    obtain ⟨st, ctx, q, log, mark, h⟩ := infoStep_eq_stored (ticked s)
    rw [h]
    exact ⟨rfl, rfl⟩
  | frame _ _ _ _ _ _ h => exact ⟨h.keepsStores.params, h.keepsStores.cfg⟩
  | timer _ h => exact ⟨h.keepsStores.params, h.keepsStores.cfg⟩

/-- Settles O51: ticks and frames keep both, and `OPEN` latches its operand. -/
theorem onlyOpenWritesCfg : Obligations.OnlyOpenWritesCfg := by
  intro s t i he
  cases exec_effect he with
  | tick h => exact ⟨h.keepsCfg.1, fun _ => h.keepsCfg.2, nofun⟩
  | row _ _ hf _ h =>
    exact ⟨h.keepsCfg.1, fun _ => h.keepsCfg.2, fun hi => by rw [hi] at hf; cases hf⟩
  | openSession => exact ⟨rfl, fun hi => absurd rfl hi, fun _ => rfl⟩
  | send => exact ⟨rfl, fun _ => rfl, nofun⟩
  | read hi =>
    exact ⟨rfl, fun _ => rfl, fun ho => by rcases hi with rfl | rfl | rfl <;> cases ho⟩

/-- A frame was taken as application data and answered with its checksum. -/
def DataTaken (s t : State) : Prop :=
  t.lastRecv.valid = true ∧ t.state = .waitingForAck ∧
    ∃ q : I16, t.txlog = s.txlog ++ encodeFrame q (checksum t.lastRecv.payload)

theorem FrameEffect.dataTaken {q p : I16} {s t : State} (h : FrameEffect q p s t)
    (hr : t.lastRecv ≠ s.lastRecv) : DataTaken s t := by
  induction h with
  | data => exact ⟨rfl, rfl, _, rfl⟩
  | @ack s =>
    obtain ⟨st, ph, mark, len, he⟩ := ackTaken_eq q s
    exact absurd (by rw [he]; rfl) hr
  | @afterHold s t _ _ _ _ ih =>
    obtain ⟨st, ph, mark, he⟩ := holdOver_eq s
    rw [he] at ih
    exact ih hr
  | _ => exact absurd rfl hr

theorem TickEffect.dataTaken {s t : State} (h : TickEffect s t) (hr : t.lastRecv ≠ s.lastRecv) :
    DataTaken s t := by
  cases h with
  | idle => exact absurd rfl hr
  | text =>
    obtain ⟨st, ctx, q, log, mark, h⟩ := infoStep_eq_stored (ticked s)
    exact absurd (by rw [h]; rfl) hr
  | frame _ _ _ _ _ _ h => exact h.dataTaken hr
  | timer _ h => exact absurd h.keepsReceived.1 hr

/-- Settles O52: of all effects only the answer to data writes the record. -/
theorem onlyDataReplacesLastReceived : Obligations.OnlyDataReplacesLastReceived := by
  intro s t i he hi hr
  cases exec_effect he with
  | tick h => exact h.dataTaken hr
  | row _ _ _ _ h => exact h.dataTaken hr
  | openSession => exact absurd rfl hi
  | send => exact absurd rfl hr
  | read => exact absurd rfl hr

/-! ### Stop and wait -/

/-- Settles O53: no state that may hold an outstanding Signal is the one that `SEND` asks for. -/
theorem noSecondSignalInFlight : Obligations.NoSecondSignalInFlight := by
  intro s p h hv
  refine exec_send_notReady (.inr fun hs => ?_)
  have hm := h.sentOnlyThere hv
  rw [hs] at hm
  cases hm

end Sys2Proof.Machine
end

