-- ==== Sys2Proof/Proofs/Noninterference.lean ====
section
/-! PROOF. What decides nothing: `ACK_WAIT` (10_state.md R27) and the sequence numbers (41_engine_core.md
R119). A relation between states goes on in lockstep if it fixes what the rules test and is kept by the
few writes that every rule is made of; both claims are such a relation. -/

namespace Sys2Proof.Machine

open Sys2Proof

/-! ### The writes that rules are made of -/

/-- The part of a state that the rules test and write by its values alone. -/
structure Control where
  state : EngineState
  phase : Phase
  abfCount : U8
  tMark : U32
  ackCtx : AckCtx
  infoBuf : Memory
  infoLen : Nat
  rxbuf : List Byte
  result : Result
  conds : List Condition
  now : U32
  params : Params

def control (s : State) : Control :=
  { state := s.state, phase := s.phase, abfCount := s.abfCount, tMark := s.tMark, ackCtx := s.ackCtx,
    infoBuf := s.infoBuf, infoLen := s.infoLen, rxbuf := s.rxbuf, result := s.result,
    conds := s.conds, now := s.now, params := s.params }

def withControl (c : Control) (s : State) : State :=
  { s with state := c.state, phase := c.phase, abfCount := c.abfCount, tMark := c.tMark,
           ackCtx := c.ackCtx, infoBuf := c.infoBuf, infoLen := c.infoLen, rxbuf := c.rxbuf,
           result := c.result, conds := c.conds, now := c.now, params := c.params }

/-- A received frame is recorded. -/
def recordRecv (f : Frame) (s : State) : State :=
  { s with lastRecv := { valid := true, seq := f.seq, payload := f.payload } }

/-- The outstanding Signal is sent again. -/
def emitAgain (s : State) : State := emitFrame s.lastSent.seq s.lastSent.payload s

/-- A relation that fixes what the rules test and is kept by the writes they are made of. -/
structure Lockstep (R : State → State → Prop) : Prop where
  control_eq : ∀ {s t}, R s t → control s = control t
  intervals_eq : ∀ {s t}, R s t → s.cfg.timeout = t.cfg.timeout ∧
    s.cfg.ackTimeout = t.cfg.ackTimeout ∧ s.cfg.abfInterval = t.cfg.abfInterval ∧
    s.cfg.refreshInterval = t.cfg.refreshInterval
  bound_eq : ∀ {s t}, R s t → s.cfg.maxAbfAttempts = t.cfg.maxAbfAttempts
  version_eq : ∀ {s t}, R s t → s.cfg.version = t.cfg.version
  openVersion_eq : ∀ {s t}, R s t → s.openCfg.version = t.openCfg.version
  sent_eq : ∀ {s t}, R s t → s.lastSent.valid = t.lastSent.valid ∧
    s.lastSent.expected = t.lastSent.expected
  lastPayload_eq : ∀ {s t}, R s t → lastPayload s = lastPayload t
  writes : ∀ {s t}, R s t → ∀ c, R (withControl c s) (withControl c t)
  tracks : ∀ {s t}, R s t → ∀ q, R (trackSeq q s) (trackSeq q t)
  emits : ∀ {s t}, R s t → ∀ p, R (emitNew p s) (emitNew p t)
  emitsAgain : ∀ {s t}, R s t → R (emitAgain s) (emitAgain t)
  sends : ∀ {s t}, R s t → ∀ p, R (sendApp p s) (sendApp p t)
  drops : ∀ {s t}, R s t → R (dropLastSent s) (dropLastSent t)
  records : ∀ {s t}, R s t → ∀ f, R (recordRecv f s) (recordRecv f t)
  starts : ∀ {s t}, R s t → R (startHandshake s) (startHandshake t)

/-- Two outcomes are alike: related states, or the same stop. -/
def OutcomesAlike (R : State → State → Prop) :
    Host.Outcome State Fault Refusal → Host.Outcome State Fault Refusal → Prop
  | .next s, .next t => R s t
  | .fault f, .fault g => f = g
  | _, _ => False

/-- An outcome like a completed one is completed in a related state. -/
theorem exists_next_of_alike {R : State → State → Prop} {s : State}
    {o : Host.Outcome State Fault Refusal} (h : OutcomesAlike R (.next s) o) :
    ∃ t, o = .next t ∧ R s t := by
  cases o with
  | next t => exact ⟨t, rfl, h⟩
  | fault f => exact h.elim
  | refused r => exact h.elim

/-- An outcome like a fault is that fault. -/
theorem fault_of_alike {R : State → State → Prop} {f : Fault}
    {o : Host.Outcome State Fault Refusal} (h : OutcomesAlike R (.fault f) o) : o = .fault f := by
  cases o with
  | next t => exact h.elim
  | fault g => exact congrArg _ (Eq.symm h)
  | refused r => exact h.elim

theorem related_ite {R : State → State → Prop} {p q : Prop} [Decidable p] [Decidable q]
    {s s' t t' : State} (hpq : p ↔ q) (hpos : R s t) (hneg : R s' t') :
    R (if p then s else s') (if q then t else t') := by
  by_cases hp : p
  · rwa [if_pos hp, if_pos (hpq.1 hp)]
  · rwa [if_neg hp, if_neg (mt hpq.2 hp)]

theorem ackReceived_stx {s : State} (h : s.ackCtx = .stx) :
    ackReceived s = { s with abfCount := 0, ackCtx := .data, infoLen := 0,
                             state := .waitingForInfoMessage, tMark := s.now } := by
  simp only [ackReceived, h]

theorem ackReceived_info {s : State} (h : s.ackCtx = .info) :
    ackReceived s = enterOkContinue { s with infoLen := 0 } := by
  simp only [ackReceived, h]

theorem ackReceived_data {s : State} (h : s.ackCtx = .data) :
    ackReceived s = enterOkContinue s := by
  simp only [ackReceived, h]

namespace Lockstep

variable {R : State → State → Prop} (hR : Lockstep R) {s t : State} (h : R s t)
include hR h

/-! ### What related states share -/

theorem state_eq : s.state = t.state := congrArg Control.state (hR.control_eq h)
theorem phase_eq : s.phase = t.phase := congrArg Control.phase (hR.control_eq h)
theorem abfCount_eq : s.abfCount = t.abfCount := congrArg Control.abfCount (hR.control_eq h)
theorem tMark_eq : s.tMark = t.tMark := congrArg Control.tMark (hR.control_eq h)
theorem ackCtx_eq : s.ackCtx = t.ackCtx := congrArg Control.ackCtx (hR.control_eq h)
theorem rxbuf_eq : s.rxbuf = t.rxbuf := congrArg Control.rxbuf (hR.control_eq h)
theorem now_eq : s.now = t.now := congrArg Control.now (hR.control_eq h)

theorem readInfo_eq : readInfo s = readInfo t := by
  have hbuf := congrArg Control.infoBuf (hR.control_eq h)
  have hlen := congrArg Control.infoLen (hR.control_eq h)
  have hparams := congrArg Control.params (hR.control_eq h)
  simp only [control] at hbuf hlen hparams
  simp only [readInfo, rxCount, hbuf, hlen, hparams, hR.rxbuf_eq h]

theorem statusWord_eq : statusWord s = statusWord t := by
  simp only [statusWord, hR.abfCount_eq h, (hR.sent_eq h).1, hR.phase_eq h, hR.state_eq h]

theorem timerInterval_eq : timerInterval s = timerInterval t := by
  obtain ⟨h1, h2, h3, h4⟩ := hR.intervals_eq h
  simp only [timerInterval, hR.state_eq h, hR.phase_eq h, h1, h2, h3, h4]

/-! ### The shared procedures -/

/-- A write whose values come from the control part. -/
theorem update (g : Control → Control) :
    R (withControl (g (control s)) s) (withControl (g (control t)) t) :=
  hR.control_eq h ▸ hR.writes h (g (control s))

theorem beginTick : R (beginTick s) (beginTick t) :=
  hR.update h fun c => { c with result := .event .none, conds := [] }

theorem setResult {r r' : Result} (hr : r = r') :
    R { s with result := r } { t with result := r' } :=
  hr ▸ hR.update h fun c => { c with result := r }

theorem setRxbuf (bs : List Byte) : R { s with rxbuf := bs } { t with rxbuf := bs } :=
  hR.update h fun c => { c with rxbuf := bs }

theorem meet (cond : Condition) : R (meet cond s) (meet cond t) :=
  hR.update h fun c => { c with conds := c.conds ++ [cond] }

theorem waitIn (st : EngineState) : R (waitIn st s) (waitIn st t) :=
  hR.update h fun c => { c with state := st, tMark := c.now }

theorem mark : R { s with tMark := s.now } { t with tMark := t.now } :=
  hR.update h fun c => { c with tMark := c.now }

theorem enterClosed : R (enterClosed s) (enterClosed t) :=
  hR.update h fun c => { c with
    result := .event (if c.phase = .opened then .connectionClosed else .handshakeFailed)
    state := .connectionClosed, phase := .notOpen }

theorem openSession : R (signal .handshakeOk { s with phase := .opened, state := .okContinue })
    (signal .handshakeOk { t with phase := .opened, state := .okContinue }) :=
  hR.update h fun c => { c with result := .event .handshakeOk, phase := .opened, state := .okContinue }

theorem enterOkContinue : R (enterOkContinue s) (enterOkContinue t) :=
  related_ite (by rw [hR.phase_eq h])
    (hR.update h fun c => { c with
      abfCount := 0, ackCtx := .data, state := .waitingForSignal, phase := .hsWaitEtx, tMark := c.now })
    (hR.update h fun c => { c with abfCount := 0, ackCtx := .data, state := .okContinue })

theorem ackReceived : R (ackReceived s) (ackReceived t) := by
  have hctx := hR.ackCtx_eq h
  cases hs : s.ackCtx with
  | stx =>
    rw [ackReceived_stx hs, ackReceived_stx (hctx.symm.trans hs)]
    exact hR.update h fun c => { c with
      abfCount := 0, ackCtx := .data, infoLen := 0, state := .waitingForInfoMessage, tMark := c.now }
  | info =>
    rw [ackReceived_info hs, ackReceived_info (hctx.symm.trans hs)]
    exact hR.enterOkContinue (hR.update h fun c => { c with infoLen := 0 })
  | data =>
    rw [ackReceived_data hs, ackReceived_data (hctx.symm.trans hs)]
    exact hR.enterOkContinue h

theorem resend : R (resend s) (resend t) := hR.waitIn (hR.emitsAgain h) .waitingForAsciiSum

theorem answerAbf : R (answerAbf s) (answerAbf t) :=
  hR.update (hR.emits h Config.opcAnt) fun c => { c with tMark := c.now }

theorem confirm : R (confirm s) (confirm t) :=
  hR.waitIn (hR.emits h Config.opcAck) .inAckTimeoutBuffer

theorem dataReceive (f : Frame) : R (dataReceive f s) (dataReceive f t) :=
  hR.update (hR.records (hR.emits h (checksum f.payload)) f) fun c => { c with
    ackCtx := if f.payload = Config.opcStx then .stx else .data
    state := .waitingForAck, tMark := c.now }

theorem sendAbf : R (sendAbf s) (sendAbf t) :=
  related_ite (by rw [hR.bound_eq h, hR.abfCount_eq h])
    (hR.enterClosed (hR.meet h _))
    (hR.update (hR.emits h Config.opcAbf) fun c => { c with
      abfCount := c.abfCount + 1, state := .waitingForAnt, tMark := c.now })

theorem endHold : R (endHold s) (endHold t) := hR.enterOkContinue (hR.drops h)

theorem infoStep : R (infoStep s) (infoStep t) := by
  have hstored := hR.update h fun c => { c with
    rxbuf := (readInfo s).rest, infoBuf := (readInfo s).buf, infoLen := (readInfo s).len }
  rw [infoStep_eq, infoStep_eq, ← hR.readInfo_eq h]
  split_ifs
  · exact hR.update (hR.emits hstored _) fun c => { c with
      ackCtx := .info, state := .waitingForAck, tMark := c.now }
  · exact hstored

/-! ### Frames -/

theorem sohWaitFrame (f : Frame) : R (sohWaitFrame f s) (sohWaitFrame f t) := by
  unfold Machine.sohWaitFrame
  rw [hR.version_eq h]
  split_ifs
  · exact hR.sends (hR.update h fun c => { c with state := .okContinue, phase := .hsVersion }) _
  · exact h

theorem etxWaitFrame (f : Frame) : R (etxWaitFrame f s) (etxWaitFrame f t) := by
  unfold Machine.etxWaitFrame
  split_ifs
  · exact hR.openSession h
  · exact hR.enterClosed (hR.meet h _)

theorem okContinueFrame (f : Frame) : R (okContinueFrame f s) (okContinueFrame f t) := by
  unfold Machine.okContinueFrame
  split
  · exact hR.waitIn h _
  · exact hR.answerAbf h
  · exact hR.dataReceive h f

theorem asciiSumFrame (f : Frame) : R (asciiSumFrame f s) (asciiSumFrame f t) := by
  unfold Machine.asciiSumFrame
  rw [(hR.sent_eq h).2]
  split_ifs
  · exact hR.confirm h
  · exact hR.resend (hR.meet h _)

theorem ackWaitFrame (f : Frame) : R (ackWaitFrame f s) (ackWaitFrame f t) := by
  unfold Machine.ackWaitFrame
  split
  · exact hR.ackReceived h
  · exact hR.answerAbf h
  · exact hR.dataReceive h f

theorem recoveryFrame (f : Frame) : R (recoveryFrame f s) (recoveryFrame f t) := by
  unfold Machine.recoveryFrame
  rw [(hR.sent_eq h).1, (hR.sent_eq h).2]
  split_ifs
  · exact hR.waitIn h _
  · exact hR.answerAbf h
  · exact hR.confirm h
  · exact h
  · exact hR.ackReceived h
  · exact hR.dataReceive h f

theorem dispatchOutsideHold (f : Frame) :
    OutcomesAlike R (ruled (dispatchOutsideHold f s)) (ruled (dispatchOutsideHold f t)) := by
  unfold Machine.dispatchOutsideHold
  rw [hR.state_eq h, hR.phase_eq h]
  cases t.state with
  | waitingForSignal =>
    cases t.phase with
    | hsWaitSoh => exact hR.sohWaitFrame h f
    | hsWaitEtx => exact hR.etxWaitFrame h f
    | _ => exact rfl
  | okContinue => exact hR.okContinueFrame h f
  | waitingForAsciiSum => exact hR.asciiSumFrame h f
  | waitingForAck => exact hR.ackWaitFrame h f
  | waitingForAnt | waitingForMoreAnt | waitingForRepMessage => exact hR.recoveryFrame h f
  | _ => exact rfl

theorem holdFrame (f : Frame) :
    OutcomesAlike R (ruled (holdFrame f s)) (ruled (holdFrame f t)) := by
  unfold Machine.holdFrame
  rw [(hR.sent_eq h).2]
  split_ifs
  · exact hR.answerAbf h
  · exact hR.mark h
  · exact hR.dispatchOutsideHold (hR.endHold h) f

theorem dispatch (f : Frame) :
    OutcomesAlike R (ruled (dispatch f s)) (ruled (dispatch f t)) := by
  have hst := hR.state_eq h
  by_cases hs : s.state = .inAckTimeoutBuffer
  · rw [dispatch_hold hs, dispatch_hold (hst.symm.trans hs)]
    exact hR.holdFrame h f
  · rw [dispatch_outside_hold hs, dispatch_outside_hold (hst ▸ hs)]
    exact hR.dispatchOutsideHold h f

theorem meetFrame (f : Frame) : OutcomesAlike R (meetFrame f s) (meetFrame f t) := by
  have hb := hR.beginTick h
  have hph := hR.phase_eq h
  have hst := hR.state_eq h
  have hunread : R (unread f (Machine.beginTick s)) (unread f (Machine.beginTick t)) :=
    hR.update hb fun c => { c with rxbuf := frameBytes f ++ c.rxbuf }
  by_cases hp : s.phase = .notOpen
  · rw [meetFrame_closed f s hp, meetFrame_closed f t (hph.symm.trans hp)]
    exact hunread
  by_cases hs : s.state = .waitingForInfoMessage
  · rw [meetFrame_info f s hp hs, meetFrame_info f t (hph ▸ hp) (hst.symm.trans hs)]
    exact hR.infoStep hunread
  · rw [meetFrame_open f s hp hs, meetFrame_open f t (hph ▸ hp) (hst ▸ hs), ← trackSeq_beginTick,
      ← trackSeq_beginTick]
    exact hR.dispatch (hR.tracks hb f.seq) f

/-! ### Operations -/

theorem timerExpired : R (timerExpired s) (timerExpired t) := by
  unfold Machine.timerExpired
  rw [hR.state_eq h]
  cases t.state with
  | waitingForSignal => exact hR.enterClosed (hR.meet h _)
  | waitingForAsciiSum => exact hR.sendAbf (hR.meet h _)
  | waitingForAck => exact hR.sendAbf (hR.meet h _)
  | inAckTimeoutBuffer => exact hR.endHold h
  | waitingForAnt => exact hR.sendAbf (hR.meet h _)
  | waitingForMoreAnt =>
    simp only [moreAntExpired, (hR.sent_eq h).1]
    split_ifs
    · exact hR.resend (hR.meet h _)
    · exact hR.waitIn (hR.meet h _) _
  | _ => exact h

theorem timerStep : R (timerStep s) (timerStep t) := by
  unfold Machine.timerStep
  rw [hR.timerInterval_eq h, hR.now_eq h, hR.tMark_eq h]
  split
  · split_ifs
    · exact hR.timerExpired h
    · exact h
  · exact h

theorem tick : OutcomesAlike R (exec .tick s) (exec .tick t) := by
  have hb : R (ticked s) (ticked t) := hR.beginTick h
  have hph := hR.phase_eq h
  have hst := hR.state_eq h
  have hrx := hR.rxbuf_eq h
  rcases execTick_cases s with ⟨hp, he⟩ | ⟨hp, hs, hr, he⟩ | ⟨hp, hs, hr, he⟩ |
    ⟨hp, hs, b0, b1, b2, b3, rest, hr, he⟩ | ⟨⟨hp, hs, hr⟩, he⟩ <;> rw [he]
  · rw [exec_tick_closed (hph.symm.trans hp)]
    exact hb
  · rw [exec_tick_noText (hph ▸ hp) (hst.symm.trans hs) (hrx.symm.trans hr)]
    exact hb
  · rw [exec_tick_text (hph ▸ hp) (hst.symm.trans hs) (hrx ▸ hr)]
    exact hR.infoStep hb
  · rw [exec_tick_frame (hph ▸ hp) (hst ▸ hs) (hrx.symm.trans hr), meetFrame_ticked]
    exact hR.meetFrame (hR.setRxbuf h rest) _
  · rw [exec_tick_noFrame ⟨hph ▸ hp, hst ▸ hs, hrx ▸ hr⟩]
    exact hR.timerStep hb

theorem start : OutcomesAlike R (exec .openSession s) (exec .openSession t) := by
  simp only [exec, execOpenSession, hR.phase_eq h, hR.openVersion_eq h]
  split_ifs
  · exact rfl
  · exact rfl
  · exact hR.starts h

theorem send (p : I16) : OutcomesAlike R (exec (.send p) s) (exec (.send p) t) := by
  simp only [exec, execSend, hR.phase_eq h, hR.state_eq h]
  split_ifs
  · exact rfl
  · exact rfl
  · exact hR.setResult (hR.sends h p) rfl

/-- Related states go on in lockstep. -/
theorem exec (i : Instr) : OutcomesAlike R (exec i s) (exec i t) := by
  by_cases hf : i.format = .frame32
  · obtain ⟨q, p, -, he⟩ := exec_frame32 hf
    rw [he, he]
    exact hR.meetFrame h _
  cases i with
  | tick => exact hR.tick h
  | openSession => exact hR.start h
  | send p => exact hR.send h p
  | readLast => exact hR.setResult h (congrArg _ (hR.lastPayload_eq h))
  | isOpen => exact hR.setResult h (by simp only [openFlag, hR.phase_eq h])
  | readStatus => exact hR.setResult h (congrArg _ (hR.statusWord_eq h))
  | _ => exact absurd rfl hf

end Lockstep

/-! ### `ACK_WAIT` -/

/-- Replacing `ACK_WAIT` commutes with every write that rules are made of, and no rule tests it. -/
theorem lockstep_withAckWait (v : U32) : Lockstep fun s t => t = withAckWait v s where
  control_eq := by rintro s _ rfl; rfl
  intervals_eq := by rintro s _ rfl; exact ⟨rfl, rfl, rfl, rfl⟩
  bound_eq := by rintro s _ rfl; rfl
  version_eq := by rintro s _ rfl; rfl
  openVersion_eq := by rintro s _ rfl; rfl
  sent_eq := by rintro s _ rfl; exact ⟨rfl, rfl⟩
  lastPayload_eq := by rintro s _ rfl; rfl
  writes := by rintro s _ rfl c; rfl
  tracks := by rintro s _ rfl q; simp only [trackSeq_eq]; rfl
  emits := by rintro s _ rfl p; rfl
  emitsAgain := by rintro s _ rfl; rfl
  sends := by rintro s _ rfl p; rfl
  drops := by rintro s _ rfl; rfl
  records := by rintro s _ rfl f; rfl
  starts := by rintro s _ rfl; rfl

/-- Settles O54: the state with another `ACK_WAIT` goes on in lockstep. -/
theorem ackWaitHasNoEffect : Obligations.AckWaitHasNoEffect := by
  intro s i v
  have halike := (lockstep_withAckWait v).exec (s := s) rfl i
  refine ⟨fun t ht => ?_, fun f hf => ?_⟩
  · rw [ht] at halike
    obtain ⟨u, hu, rfl⟩ := exists_next_of_alike halike
    exact hu
  · rw [hf] at halike
    exact fault_of_alike halike

/-! ### Sequence numbers -/

/-- A frame of the same payload on both sides leaves whole frames of the same payloads. -/
theorem sameButSeq_appended {s t : State} (h : SameButSeq s t) (q q' p : I16) :
    (s.txlog ++ encodeFrame q p).length % 4 = 0 ∧ (t.txlog ++ encodeFrame q' p).length % 4 = 0 ∧
      sentPayloads (s.txlog ++ encodeFrame q p) = sentPayloads (t.txlog ++ encodeFrame q' p) :=
  ⟨whole_frames_append h.txFrames q p, whole_frames_append h.txFrames' q' p, by
    rw [sentPayloads_append _ _ _ h.txFrames, sentPayloads_append _ _ _ h.txFrames', h.txPayloads]⟩

/-- Two states that differ in sequence numbers alone go on so. -/
theorem lockstep_sameButSeq : Lockstep SameButSeq where
  control_eq h := by
    simp only [control, h.state, h.phase, h.abfCount, h.tMark, h.ackCtx, h.infoBuf, h.infoLen,
      h.rxbuf, h.result, h.conds, h.now, h.params]
  intervals_eq h := by simp only [h.cfg, and_self]
  bound_eq h := by rw [h.cfg]
  version_eq h := by rw [h.cfg]
  openVersion_eq h := by rw [h.openCfg]
  sent_eq h := ⟨h.sentValid, h.sentExpected⟩
  lastPayload_eq h := by simp only [lastPayload, h.recvValid, h.recvPayload]
  writes h c :=
    { h with
      state := rfl, phase := rfl, abfCount := rfl, tMark := rfl, ackCtx := rfl, infoBuf := rfl
      infoLen := rfl, rxbuf := rfl, result := rfl, conds := rfl, now := rfl, params := rfl }
  tracks h q := by
    rw [trackSeq_eq, trackSeq_eq]
    exact { h with }
  emits h p :=
    have ⟨hwhole, hwhole', hpayloads⟩ := sameButSeq_appended h _ _ p
    { h with txFrames := hwhole, txFrames' := hwhole', txPayloads := hpayloads }
  emitsAgain {s t} h := by
    have ⟨hwhole, hwhole', hpayloads⟩ :=
      sameButSeq_appended h s.lastSent.seq t.lastSent.seq t.lastSent.payload
    rw [emitAgain, emitAgain, h.sentPayload]
    exact { h with txFrames := hwhole, txFrames' := hwhole', txPayloads := hpayloads }
  sends h p :=
    have ⟨hwhole, hwhole', hpayloads⟩ := sameButSeq_appended h _ _ p
    { h with
      state := rfl, tMark := h.now, sentValid := rfl, sentPayload := rfl, sentExpected := rfl
      txFrames := hwhole, txFrames' := hwhole', txPayloads := hpayloads }
  drops h := { h with sentValid := rfl }
  records h f := { h with recvValid := rfl, recvPayload := rfl }
  starts h :=
    { h with
      state := rfl, phase := rfl, abfCount := rfl, tMark := h.now, cfg := h.openCfg
      sentValid := rfl, recvValid := rfl, ackCtx := rfl, infoLen := rfl, result := rfl }

/-- Settles O55: by lockstep. -/
theorem sequenceNumbersDecideNothing : Obligations.SequenceNumbersDecideNothing := by
  intro s t i h
  have halike := lockstep_sameButSeq.exec h i
  refine ⟨fun s' hs' => ?_, fun f hf => ?_⟩
  · rw [hs'] at halike
    exact exists_next_of_alike halike
  · rw [hf] at halike
    exact fault_of_alike halike

end Sys2Proof.Machine
end

