-- ==== Sys2Proof/Proofs/SilentPeer.lean ====
section
/-! PROOF. A silent peer (44_recovery.md R171, R180): a tick at each deadline sends one `ABF` while the
bound leaves room, and then closes. -/

namespace Sys2Proof.Machine

open Sys2Proof

/-- The engine waits this long for a peer from which no whole frame has come: for the checksum of its
Signal, or for the `ANT` that answers its last `ABF`. -/
structure Silent (s : State) (interval : U32) : Prop where
  phase : s.phase ≠ .notOpen
  short : s.rxbuf.length < 4
  wait : (s.state = .waitingForAsciiSum ∧ interval = s.cfg.timeout) ∨
    (s.state = .waitingForAnt ∧ interval = s.cfg.abfInterval)

/-- The host's clock stands at the deadline. -/
def atDeadline (interval : U32) (s : State) : State := { s with now := s.tMark + interval }

theorem expired_at_deadline (mark interval : U32) : Expired (mark + interval) mark interval := by
  rw [← elapsed_iff_expired, elapsed, BitVec.add_comm, BitVec.add_sub_cancel]
  exact decide_eq_true (BitVec.le_refl _)

theorem exec_tick_atDeadline {s : State} {interval : U32} (h : Silent s interval) :
    ∃ c, exec .tick (atDeadline interval s) = .next (abfAttempt c (atDeadline interval s)) := by
  have hexp := expired_at_deadline s.tMark interval
  rcases h.wait with ⟨hs, hi⟩ | ⟨hs, hi⟩
  · have hn : NoFrame (atDeadline interval s) := ⟨h.phase, by simp [atDeadline, hs], h.short⟩
    exact ⟨_, (expiredWaitSendsAbfOrCloses _ hn).1 hs (hi ▸ hexp)⟩
  · have hn : NoFrame (atDeadline interval s) := ⟨h.phase, by simp [atDeadline, hs], h.short⟩
    exact ⟨_, (expiredWaitSendsAbfOrCloses _ hn).2.2 hs (hi ▸ hexp)⟩

theorem runTicks_of_next {now : U32} {clock : List U32} {s t : State}
    (h : exec .tick { s with now := now } = .next t) :
    runTicks (now :: clock) s = runTicks clock t := by
  simp only [runTicks, h]

/-- The wait for the answer to an `ABF` is silent too. -/
theorem silent_abfSent {s : State} {interval : U32} (c : Condition) (h : Silent s interval) :
    Silent (abfSent c (atDeadline interval s)) s.cfg.abfInterval :=
  ⟨h.phase, h.short, .inr ⟨rfl, rfl⟩⟩

/-- Below the bound the first tick sends an `ABF`; the other deadlines are those of its answer. -/
theorem runTicks_below_bound {s : State} {interval : U32} (n : Nat) (h : Silent s interval)
    (hlt : s.abfCount.toNat < s.cfg.maxAbfAttempts.toNat) :
    ∃ c, runTicks (clockFrom (s.tMark + interval) s.cfg.abfInterval (n + 1)) s =
      runTicks (clockFrom (s.tMark + interval + s.cfg.abfInterval) s.cfg.abfInterval n)
        (abfSent c (atDeadline interval s)) := by
  obtain ⟨c, htick⟩ := exec_tick_atDeadline h
  rw [abfAttempt_below_bound (s := atDeadline interval s) c hlt] at htick
  exact ⟨c, runTicks_of_next htick⟩

/-- The `ABF` that a tick sends comes before those of the later ticks. -/
theorem abfFrames_after_abfSent (log : List Byte) (q : I16) (n : Nat) :
    log ++ encodeFrame q 0x0015 ++ abfFrames (q + 1) n = log ++ abfFrames q (n + 1) :=
  List.append_assoc _ _ _

/-- At the bound it closes. -/
theorem runTicks_at_bound {s : State} {interval : U32} (d : U32) (h : Silent s interval)
    (hbound : s.cfg.maxAbfAttempts.toNat ≤ s.abfCount.toNat) :
    ∃ cs, runTicks (clockFrom (s.tMark + interval) d 1) s =
      .next (closedAfter cs (atDeadline interval s)) := by
  obtain ⟨c, htick⟩ := exec_tick_atDeadline h
  rw [abfAttempt_at_bound (s := atDeadline interval s) c hbound] at htick
  exact ⟨_, runTicks_of_next htick⟩

/-- As many `ABF` as there are deadlines, while the bound leaves room. -/
theorem runTicks_sends_abf (n : Nat) {s : State} {interval : U32} (h : Silent s interval)
    (hn : s.abfCount.toNat + (n + 1) ≤ s.cfg.maxAbfAttempts.toNat) :
    ∃ t, runTicks (clockFrom (s.tMark + interval) s.cfg.abfInterval (n + 1)) s = .next t ∧
      t.state = .waitingForAnt ∧ t.phase = s.phase ∧
      t.abfCount.toNat = s.abfCount.toNat + (n + 1) ∧
      t.txlog = s.txlog ++ abfFrames s.seq (n + 1) := by
  induction n generalizing s interval with
  | zero =>
    have hlt : s.abfCount.toNat < s.cfg.maxAbfAttempts.toNat := hn
    obtain ⟨c, hrun⟩ := runTicks_below_bound 0 h hlt
    exact ⟨_, hrun, rfl, rfl, toNat_succ_of_lt hlt,
      (List.append_nil _).symm.trans (abfFrames_after_abfSent _ _ 0)⟩
  | succ n ih =>
    have hlt : s.abfCount.toNat < s.cfg.maxAbfAttempts.toNat := by omega
    have hcount := toNat_succ_of_lt hlt
    obtain ⟨c, hrun⟩ := runTicks_below_bound (n + 1) h hlt
    have hleft : (s.abfCount + 1).toNat + (n + 1) ≤ s.cfg.maxAbfAttempts.toNat := by omega
    obtain ⟨t, ht, hstate, hphase, hcount', hlog⟩ := ih (silent_abfSent c h) hleft
    have hsum : (s.abfCount + 1).toNat + (n + 1) = s.abfCount.toNat + (n + 1 + 1) := by omega
    exact ⟨t, hrun.trans ht, hstate, hphase, hcount'.trans hsum,
      hlog.trans (abfFrames_after_abfSent _ _ (n + 1))⟩

/-- When the deadlines outnumber the attempts that are left by one, the last one closes. -/
theorem runTicks_closes (n : Nat) {s : State} {interval : U32} (h : Silent s interval)
    (hn : s.abfCount.toNat + n = s.cfg.maxAbfAttempts.toNat) :
    ∃ t, runTicks (clockFrom (s.tMark + interval) s.cfg.abfInterval (n + 1)) s = .next t ∧
      t.state = .connectionClosed ∧ t.phase = .notOpen ∧
      t.txlog = s.txlog ++ abfFrames s.seq n ∧ t.lastSent = s.lastSent ∧
      t.result = .event (if s.phase = .opened then .connectionClosed else .handshakeFailed) := by
  induction n generalizing s interval with
  | zero =>
    obtain ⟨cs, hrun⟩ := runTicks_at_bound s.cfg.abfInterval h hn.ge
    exact ⟨_, hrun, rfl, rfl, (List.append_nil _).symm, rfl, rfl⟩
  | succ n ih =>
    have hlt : s.abfCount.toNat < s.cfg.maxAbfAttempts.toNat := by omega
    have hcount := toNat_succ_of_lt hlt
    obtain ⟨c, hrun⟩ := runTicks_below_bound (n + 1) h hlt
    have hleft : (s.abfCount + 1).toNat + n = s.cfg.maxAbfAttempts.toNat := by omega
    obtain ⟨t, ht, hstate, hphase, hlog, hsent, hres⟩ := ih (silent_abfSent c h) hleft
    exact ⟨t, hrun.trans ht, hstate, hphase, hlog.trans (abfFrames_after_abfSent _ _ n), hsent,
      hres⟩

/-- Settles O56: the wait for the checksum is the first silent one, with no attempt used. -/
theorem silentPeerClosesAfterTheBound : Obligations.SilentPeerClosesAfterTheBound := by
  intro s hp hs hshort hcount clock n
  have hsilent : Silent s s.cfg.timeout := ⟨hp, hshort, .inl ⟨hs, rfl⟩⟩
  have hzero : s.abfCount.toNat = 0 := congrArg BitVec.toNat hcount
  refine ⟨fun k hk hkn => ?_, runTicks_closes n hsilent (by rw [hzero]; exact Nat.zero_add _)⟩
  obtain ⟨k, rfl⟩ := Nat.exists_eq_succ_of_ne_zero hk.ne'
  obtain ⟨t, hrun, hstate, hphase, hcount', hlog⟩ :=
    runTicks_sends_abf k hsilent (by rw [hzero, Nat.zero_add]; exact hkn)
  exact ⟨t, hrun, hstate, hphase, by rw [hcount', hzero, Nat.zero_add], hlog⟩

end Sys2Proof.Machine
end
